-- ==== Sys2Proof/Word.lean ====
section
/-! DEFINITION. The word type, the byte type, the register width XLEN, the instruction lengths and the access widths. -/

namespace Sys2Proof

/-- One byte of the backing store (20_memory.md R51). -/
abbrev Byte := BitVec 8

/-- A value the spec calls `bitsXLEN` (00_scope.md R9). One carrier serves both register widths: at XLEN = 32 a
value is held zero-extended, and every operation that makes a `bitsXLEN` value cuts it back to XLEN bits
(DESIGN CHOICE, safe, notes/assumptions/1.md). -/
abbrev Word := BitVec 64

/-- The two values the width parameter XLEN may take (00_scope.md R9, D1). -/
inductive Xlen where
  | rv32
  | rv64
  deriving DecidableEq, Repr

/-- The byte length of an instruction: one or two 16-bit parcels (30_encoding.md R90; R92: there is no other). -/
inductive ILen where
  | two
  | four
  deriving DecidableEq, Repr

/-- The scalar access widths of the bus (20_memory.md R54). -/
inductive Width where
  | w1
  | w2
  | w4
  | w8
  deriving DecidableEq, Repr

/-- XLEN as a number of bits. -/
def Xlen.bits : Xlen → Nat
  | .rv32 => 32
  | .rv64 => 64

/-- The number of bytes of an instruction length. -/
def ILen.bytes : ILen → Nat
  | .two => 2
  | .four => 4

/-- The number of bytes of an access width. -/
def Width.bytes : Width → Nat
  | .w1 => 1
  | .w2 => 2
  | .w4 => 4
  | .w8 => 8

/-- The machine word width `XLEN/8`, one of the scalar widths (20_memory.md R54). -/
def Xlen.width : Xlen → Width
  | .rv32 => .w4
  | .rv64 => .w8

end Sys2Proof
end

