-- ==== Sys2Proof/Machine/Bits.lean ====
section
/-! DEFINITION. Cutting and extending values to XLEN bits, and the byte order (00_scope.md R14, 20_memory.md R59). -/

namespace Sys2Proof.Machine

/-- `trunc_XLEN(v)`: bits `XLEN-1 : 0` of `v`, held zero-extended (00_scope.md R14). -/
def trunc (x : Xlen) (v : Word) : Word :=
  match x with
  | .rv32 => (v.setWidth 32).setWidth 64
  | .rv64 => v

/-- `sext(v)`: `v` sign-extended to XLEN bits (00_scope.md R14). -/
def sext (x : Xlen) {n : Nat} (v : BitVec n) : Word := trunc x (v.signExtend 64)

/-- `zext(v)`: `v` zero-extended to XLEN bits (00_scope.md R14). -/
def zext (x : Xlen) {n : Nat} (v : BitVec n) : Word := trunc x (v.setWidth 64)

/-- `trunc_XLEN` of a natural number, for the end address of a byte range (20_memory.md R60). -/
def truncNat (x : Xlen) (a : Nat) : Word := trunc x (BitVec.ofNat 64 a)

/-- The value of a byte list read little-endian: the byte at index `k` holds bits `8k+7 : 8k` (20_memory.md R59). -/
def leNat : List Byte → Nat
  | [] => 0
  | b :: bs => b.toNat + 256 * leNat bs

/-- The first `n` bytes of a value, little-endian (20_memory.md R59). -/
def leBytes (n : Nat) {m : Nat} (v : BitVec m) : List Byte :=
  (List.range n).map fun k => v.extractLsb' (8 * k) 8

end Sys2Proof.Machine
end

