-- ==== Sys2Proof/Config.lean ====
section
/-! DEFINITION. The implementation parameters of 00_scope.md section 3 that are fixed at construction, as plain
data: XLEN, BASE, SIZE and the decoder's verdict CLASSIFY_OTHER. A state carries its `Config`, so a statement about
every state is a statement about every choice of these parameters. -/

namespace Sys2Proof

/-- The decoder's verdict on a parcel or word that encodes none of the eleven operations (00_scope.md R13). -/
inductive Verdict where
  | illegal
  | unimplemented
  deriving DecidableEq, Repr

/-- The parameter CLASSIFY_OTHER(len, bits) (00_scope.md R13, D7), a function on a finite domain, written down as a
default verdict and the list of encodings that get the other one (DESIGN CHOICE, safe, notes/assumptions/2.md:
every function of that type has such a table, `Sys2Proof.Laws.classify_covers`). -/
structure Classify where
  dflt       : Verdict
  exceptions : List (ILen × BitVec 32)
  deriving DecidableEq, Repr

/-- The construction parameters of one engine. `base` and `size` are natural numbers, since SIZE may be 2^XLEN
(00_scope.md R10). -/
structure Config where
  xlen     : Xlen
  base     : Nat
  size     : Nat
  classify : Classify
  deriving DecidableEq, Repr

/-- The opposite verdict. -/
def Verdict.other : Verdict → Verdict
  | .illegal => .unimplemented
  | .unimplemented => .illegal

/-- CLASSIFY_OTHER(len, bits), a 16-bit parcel given zero-extended. -/
def Classify.verdict (c : Classify) (len : ILen) (bits : BitVec 32) : Verdict :=
  if (len, bits) ∈ c.exceptions then c.dflt.other else c.dflt

/-- The default CLASSIFY_OTHER of 30_encoding.md R105. -/
def Classify.standard : Classify :=
  { dflt := .unimplemented, exceptions := [(.two, 0x0000#32), (.four, 0xFFFFFFFF#32)] }

/-- `TOP = BASE + SIZE - 1` (00_scope.md R10). -/
def Config.top (c : Config) : Nat := c.base + c.size - 1

/-- The ranges a construction accepts: `SIZE >= 1` and `BASE + SIZE <= 2^XLEN` (00_scope.md R10, D19). -/
abbrev Config.wf (c : Config) : Prop := 1 ≤ c.size ∧ c.base + c.size ≤ 2 ^ c.xlen.bits

/-- `PAGE = 4096` (00_scope.md R11). -/
def Config.page : Nat := 4096

/-- The host arguments the model's reset state is constructed with: those of the conventions of
95_test_vectors.md, and the CLASSIFY_OTHER of R105 (DESIGN CHOICE, unsafe, notes/assumptions/3.md). -/
def Config.standard : Config :=
  { xlen := .rv64, base := 0, size := 0x10000, classify := Classify.standard }

end Sys2Proof
end

