-- ==== Sys2Proof/Syntax.lean ====
section
/-! DEFINITION. The eleven dispatched operations (00_scope.md R5) with their decoded operands (30_encoding.md R102). -/

namespace Sys2Proof

/-- The index of a general-purpose register: "a closed enumeration of 32 names" (10_state.md R20). -/
abbrev Reg := Fin 32

/-- The index of a floating-point register (10_state.md R26). -/
abbrev FReg := Fin 32

/-- One constructor per row of the opcode table (30_encoding.md R100). An immediate is the value the format
assembles, before its extension to XLEN: `imm_I` 12 bits (R95), AUIPC's `word[31:12]` 20 bits (R96, R120), `imm_J` 21
bits (R97), `imm_B` 13 bits (R98); `shamt` is the 6-bit shift amount (R99). -/
inductive Instr where
  | add   (rd rs1 rs2 : Reg)
  | sub   (rd rs1 rs2 : Reg)
  | slli  (rd rs1 : Reg) (shamt : BitVec 6)
  | addi  (rd rs1 : Reg) (imm : BitVec 12)
  | auipc (rd : Reg) (imm : BitVec 20)
  | lb    (rd rs1 : Reg) (imm : BitVec 12)
  | lw    (rd rs1 : Reg) (imm : BitVec 12)
  | jal   (rd : Reg) (imm : BitVec 21)
  | jalr  (rd rs1 : Reg) (imm : BitVec 12)
  | bne   (rs1 rs2 : Reg) (imm : BitVec 13)
  | ecall
  deriving DecidableEq, Repr

end Sys2Proof
end

