-- ==== Sys2Proof/Machine/State.lean ====
section
/-! DEFINITION. The engine's state as plain data (10_state.md section 5), its fault values, and its state after
construction (70_reset_and_hazards.md R260, R261). -/

namespace Sys2Proof.Machine

/-- The closed fault taxonomy (60_exceptions.md R230). The bus and the fetch raise these values, and the engine takes
each by halting with it in the halt record (40_fetch_engine.md R145), which is a next state: `step`, `tick` and `exec`
never answer `Outcome.fault`. Safe: nothing is left out of the record. -/
inductive Fault where
  /-- Bounds violation of a read: raised by both parcel fetches, LB, LW and the `write` syscall. Safe. -/
  | loadAddressFault (addr : Word)
  /-- Bounds violation of a write: raised by `memWrite` and `writeBytes`, which no instruction calls. Safe. -/
  | storeAddressFault (addr : Word)
  /-- A scalar access at an address that is no multiple of its width: raised by the first-parcel fetch, LW and
  `memWrite`. Safe. -/
  | unalignedAccess (addr : Word)
  /-- A failed translation: raised by `translate`, and turned into one of the two address faults by every bus
  operation (20_memory.md R63). Safe. -/
  | addressOutOfRange (addr : Nat)
  /-- The page check (the first parcel) or the decoder's illegal marker (the instruction's bits), with the
  instruction's pc. Safe. -/
  | illegalInstruction (rawBits : BitVec 32) (pc : Word)
  /-- The source's safety net: raised by nothing (60_exceptions.md R231). Safe. -/
  | unknown
  deriving DecidableEq, Repr

/-- Why the model has no meaning for what it was asked. -/
inductive Refusal where
  /-- Raised by an arm of `exec` that has no meaning yet. Safe. -/
  | notModelled (mnemonic : String)
  /-- Raised by `construct` for a range with SIZE = 0 or BASE + SIZE > 2^XLEN (00_scope.md R10, D19). Safe. -/
  | badRange
  /-- Raised by `initFrom` for an image longer than SIZE (20_memory.md R70, D17). Safe. -/
  | imageTooLong
  /-- Raised by a host entry point used outside the idle phase (70_reset_and_hazards.md R265, D24, D31). Safe. -/
  | notIdle
  /-- Raised by `tick` outside the running phase (40_fetch_engine.md R146). Safe. -/
  | notRunning
  deriving DecidableEq, Repr

/-- The halt record (10_state.md R32). -/
inductive Halt where
  | none
  | exit
  | fault (f : Fault)
  | unimplemented (bits : BitVec 32) (pc : Word)
  deriving DecidableEq, Repr

/-- A diagnostic event (10_state.md R33). `args` holds `a0` to `a6`. -/
inductive Event where
  | instrTrace (pc : Word) (len : ILen) (bits : BitVec 32)
  | syscallTrace (num : Word) (args : Vector Word 7)
  | writeOut (fd : Word) (bytes : List Byte)
  | exitDiag (status : Word) (ok : Bool)
  | haltReport (halt : Halt)
  deriving DecidableEq, Repr

/-- The three phases of the engine (40_fetch_engine.md R130). -/
inductive Phase where
  | idle
  | running
  | halted
  deriving DecidableEq, Repr

/-- The bytes of the backing store that differ from the construction value, as (offset into the buffer, byte) pairs
(20_memory.md R51, R52; DESIGN CHOICE, safe, notes/assumptions/4.md). -/
abbrev Memory := List Host.Cell

/-- The state of the engine (10_state.md section 5). -/
structure State where
  /-- XLEN, BASE, SIZE and CLASSIFY_OTHER, fixed at construction (00_scope.md section 3). -/
  cfg     : Config
  /-- `GPR[1]` to `GPR[31]`, at indices 0 to 30; `x0` has no storage (10_state.md R22). -/
  gpr     : Vector Word 31
  /-- `f0` to `f31` (10_state.md R26). -/
  fpr     : Vector Word 32
  /-- The program counter (10_state.md R28). -/
  pc      : Word
  /-- The running flag (10_state.md R30). -/
  running : Bool
  /-- The debug flag (10_state.md R31). -/
  debug   : Bool
  /-- The halt record (10_state.md R32). -/
  halt    : Halt
  /-- The diagnostic log, oldest event first (10_state.md R33). -/
  log     : List Event
  /-- The memory buffer (20_memory.md R51). -/
  buf     : Memory
  deriving DecidableEq, Repr

/-- The state construction leaves, for any host arguments (70_reset_and_hazards.md R260, R261). -/
def State.init (c : Config) : State :=
  { cfg := c
    gpr := Vector.replicate 31 0
    fpr := Vector.replicate 32 0
    pc := 0
    running := false
    debug := false
    halt := .none
    log := []
    buf := [] }

/-- The machine right after reset: construction with the host arguments of `Config.standard`
(notes/assumptions/3.md). -/
def State.reset : State := State.init Config.standard

end Sys2Proof.Machine
end

