-- ==== Sys2Proof/Machine/Memory.lean ====
section
/-! DEFINITION. The byte buffer as a canonical list of cells. -/

namespace Sys2Proof.Machine

/-- What a byte of the buffer that nothing has written reads as: 0, the construction value (20_memory.md R51, D18). -/
def unlistedByte : Byte := 0#8

/-- The canonical form: offsets strictly rising, and no cell that equals what an unlisted offset reads as. -/
abbrev Memory.wf (m : Memory) : Prop :=
  m.Pairwise (fun p q => p.1 < q.1) ∧ ∀ c ∈ m, c.2 ≠ unlistedByte

/-- The byte at one offset. -/
def Memory.read : Memory → Nat → Byte
  | [], _ => unlistedByte
  | c :: m, o => if c.1 = o then c.2 else Memory.read m o

/-- The buffer with one byte replaced, in canonical form again. -/
def Memory.write : Memory → Nat → Byte → Memory
  | [], o, b => if b = unlistedByte then [] else [(o, b)]
  | c :: m, o, b =>
    if o < c.1 then (if b = unlistedByte then c :: m else (o, b) :: c :: m)
    else if c.1 = o then (if b = unlistedByte then m else (o, b) :: m)
    else c :: Memory.write m o b

/-- `buf[o], ..., buf[o+n-1]`. -/
def Memory.readN (m : Memory) (o n : Nat) : List Byte := (List.range n).map fun k => m.read (o + k)

/-- The buffer with a list of bytes stored from one offset on. -/
def Memory.writeList : Memory → Nat → List Byte → Memory
  | m, _, [] => m
  | m, o, b :: bs => Memory.writeList (m.write o b) (o + 1) bs

end Sys2Proof.Machine
end

