-- ==== Sys2Proof/Machine/Ops.lean ====
section
/-! DEFINITION. The named operations over the register files, the pc, the diagnostic log, the bus and the halt: the
pseudocode primitives of 00_scope.md R15. -/

namespace Sys2Proof.Machine

/-- `x[i]`: the hardwired 0, or the stored register (10_state.md R21). -/
def State.x (s : State) (r : Reg) : Word := if h : r.val = 0 then 0 else s.gpr[r.val - 1]'(by omega)

/-- `x[i] <- v`, discarded for `x0` (10_state.md R22). -/
def State.setX (s : State) (r : Reg) (v : Word) : State :=
  if h : r.val = 0 then s else { s with gpr := s.gpr.set (r.val - 1) (trunc s.cfg.xlen v) (by omega) }

/-- `f[i]` (10_state.md R26). -/
def State.f (s : State) (r : FReg) : Word := s.fpr[r.val]

/-- `f[i] <- v`, for every `i` (10_state.md R26). No instruction calls it (R27). -/
def State.setF (s : State) (r : FReg) (v : Word) : State :=
  { s with fpr := s.fpr.set r.val (trunc s.cfg.xlen v) }

/-- `pc <- target`, modulo 2^XLEN (10_state.md R28). -/
def State.setPc (s : State) (v : Word) : State := { s with pc := trunc s.cfg.xlen v }

/-- The generic post-increment `pc <- pc + len` (40_fetch_engine.md R143). -/
def State.nextPc (s : State) (len : ILen) : State := s.setPc (s.pc + BitVec.ofNat 64 len.bytes)

/-- `emit E` (10_state.md R33). -/
def State.emit (s : State) (e : Event) : State := { s with log := s.log ++ [e] }

/-- The phase, derived from the running flag and the halt record (10_state.md R32). -/
def State.phase (s : State) : Phase :=
  if s.running then .running else if s.halt = .none then .idle else .halted

/-- `halt_with(h)`: the running flag cleared, the halt record set, the report emitted (40_fetch_engine.md R145). -/
def State.haltWith (s : State) (h : Halt) : State := ({ s with running := false, halt := h }).emit (.haltReport h)

/-- Taking a fault: the tick ends at once, the pc stays at the instruction that raised it, no register and no byte
changes, and the engine halts with the fault in its record (60_exceptions.md R232, R237; 40_fetch_engine.md R144,
R145). The engine has no vector, no saved pc, no status and no mode to change, and no return from a trap
(60_exceptions.md R237, R239): `halted` is final. -/
def takeFault (s : State) (f : Fault) : Host.Outcome State Fault Refusal := .next (s.haltWith (.fault f))

/-- The numeric code of a fault kind (60_exceptions.md R230, D28). -/
def Fault.code : Fault → Nat
  | .loadAddressFault _ => 1
  | .storeAddressFault _ => 2
  | .unalignedAccess _ => 3
  | .addressOutOfRange _ => 4
  | .illegalInstruction _ _ => 5
  | .unknown => 6

/-- The fault-status view of a halt record: 0 means "no fault", and the unimplemented outcome has no code
(60_exceptions.md R230, R233). -/
def Halt.faultCode : Halt → Nat
  | .fault f => f.code
  | _ => 0

/-- `translate(a)`: the buffer offset of an address, or the internal failure (20_memory.md R52). -/
def translate (c : Config) (a : Nat) : Except Fault Nat :=
  if c.base ≤ a ∧ a ≤ c.top then .ok (a - c.base) else .error (.addressOutOfRange a)

/-- `address_range()`: the inclusive range (20_memory.md R53). -/
def addressRange (c : Config) : Nat × Nat := (c.base, c.top)

/-- Every failed check of a bus operation is reported by direction (20_memory.md R63). -/
def checked (e : Except Fault Nat) (f : Fault) : Except Fault Nat :=
  match e with
  | .ok o => .ok o
  | .error _ => .error f

/-- The two checks of a scalar access in their order, alignment then bounds of the first and last byte; the answer is
the offset of the first byte (20_memory.md R55, R56, R57). -/
def scalarCheck (c : Config) (a : Word) (w : Width) (f : Fault) : Except Fault Nat :=
  if a.toNat % w.bytes ≠ 0 then .error (.unalignedAccess a)
  else
    match checked (translate c (a.toNat + w.bytes - 1)) f with
    | .error g => .error g
    | .ok _ => checked (translate c a.toNat) f

/-- `MemRead(a, W)` (20_memory.md R55). -/
def State.memRead (s : State) (a : Word) (w : Width) : Except Fault (BitVec (8 * w.bytes)) :=
  match scalarCheck s.cfg a w (.loadAddressFault a) with
  | .error f => .error f
  | .ok o => .ok (BitVec.ofNat _ (leNat (s.buf.readN o w.bytes)))

/-- `MemWrite(a, W, v)` (20_memory.md R56). No instruction calls it (R74). -/
def State.memWrite (s : State) (a : Word) (w : Width) (v : BitVec (8 * w.bytes)) : Except Fault State :=
  match scalarCheck s.cfg a w (.storeAddressFault a) with
  | .error f => .error f
  | .ok o => .ok { s with buf := s.buf.writeList o (leBytes w.bytes v) }

/-- The two checks of a byte-range access: the start, then the end boundary `a + len` as an unbounded natural number
(20_memory.md R60, D15). `mk` is the address fault of the access's direction. -/
def rangeCheck (c : Config) (a : Word) (len : Nat) (mk : Word → Fault) : Except Fault Nat :=
  match checked (translate c a.toNat) (mk a) with
  | .error f => .error f
  | .ok o =>
    match checked (translate c (a.toNat + len)) (mk (truncNat c.xlen (a.toNat + len))) with
    | .error f => .error f
    | .ok _ => .ok o

/-- `ReadBytes(a, len)` (20_memory.md R60). -/
def State.readBytes (s : State) (a : Word) (len : Nat) : Except Fault (List Byte) :=
  match rangeCheck s.cfg a len .loadAddressFault with
  | .error f => .error f
  | .ok o => .ok (s.buf.readN o len)

/-- `WriteBytes(a, d)` (20_memory.md R61). No instruction calls it (R74). -/
def State.writeBytes (s : State) (a : Word) (d : List Byte) : Except Fault State :=
  match rangeCheck s.cfg a d.length .storeAddressFault with
  | .error f => .error f
  | .ok o => .ok { s with buf := s.buf.writeList o d }

/-- The byte of memory at an address, `none` outside the range (20_memory.md R52, R72): the reading that claims about
memory use. -/
def State.byteAt (s : State) (a : Nat) : Option Byte :=
  match translate s.cfg a with
  | .ok o => some (s.buf.read o)
  | .error _ => none

end Sys2Proof.Machine
end

