-- ==== Sys2Proof/Machine/Operands.lean ====
section
/-! DEFINITION. Every operand form: the immediates extended to XLEN (30_encoding.md R95 to R99), the one addressing
mode (42_loads.md R182), the link value and the syscall's argument registers. -/

namespace Sys2Proof.Machine

/-- `imm_I` (30_encoding.md R95). -/
def State.immI (s : State) (imm : BitVec 12) : Word := sext s.cfg.xlen imm

/-- `imm_U`: the 20 bits followed by twelve zeros, sign-extended from bit 31 (30_encoding.md R96). -/
def State.immU (s : State) (imm : BitVec 20) : Word := sext s.cfg.xlen (imm ++ 0#12)

/-- `imm_J` (30_encoding.md R97). -/
def State.immJ (s : State) (imm : BitVec 21) : Word := sext s.cfg.xlen imm

/-- `imm_B` (30_encoding.md R98). -/
def State.immB (s : State) (imm : BitVec 13) : Word := sext s.cfg.xlen imm

/-- The effective address `x[rs1] + imm_I`, modulo 2^XLEN (42_loads.md R182). -/
def State.ea (s : State) (rs1 : Reg) (imm : BitVec 12) : Word := trunc s.cfg.xlen (s.x rs1 + s.immI imm)

/-- The link value `pc + 4`, whatever the fetched length (43_control.md R190, R191). -/
def State.link (s : State) : Word := s.pc + 4#64

def Reg.zero : Reg := 0
/-- `a0` is `x10` (10_state.md R24). -/
def Reg.a0 : Reg := 10
def Reg.a1 : Reg := 11
def Reg.a2 : Reg := 12
def Reg.a3 : Reg := 13
def Reg.a4 : Reg := 14
def Reg.a5 : Reg := 15
def Reg.a6 : Reg := 16
/-- `a7` is `x17` (10_state.md R24). -/
def Reg.a7 : Reg := 17

/-- The syscall number, `a7` (44_system_syscall.md R202). -/
def State.syscallNum (s : State) : Word := s.x Reg.a7

/-- The syscall's seven arguments, `a0` to `a6` (44_system_syscall.md R202). -/
def State.syscallArgs (s : State) : Vector Word 7 :=
  #v[s.x Reg.a0, s.x Reg.a1, s.x Reg.a2, s.x Reg.a3, s.x Reg.a4, s.x Reg.a5, s.x Reg.a6]

end Sys2Proof.Machine
end

