-- ==== Sys2Proof/Machine/Boot.lean ====
section
/-! DEFINITION. The host's entry points (70_reset_and_hazards.md R265), each refused outside the phase that allows it. -/

namespace Sys2Proof.Machine

/-- Construction with `BASE`, `SIZE` and the other parameters (70_reset_and_hazards.md R260, R261; 00_scope.md R10). -/
def construct (c : Config) : Host.Outcome State Fault Refusal :=
  if c.wf then .next (State.init c) else .refused .badRange

/-- A host action the idle phase allows. -/
def whenIdle (s : State) (k : State → Host.Outcome State Fault Refusal) : Host.Outcome State Fault Refusal :=
  if s.phase = .idle then k s else .refused .notIdle

/-- `init_from(image)`: byte `i` of the image goes to `buf[i]` (20_memory.md R70). -/
def initFrom (image : List Byte) (s : State) : Host.Outcome State Fault Refusal :=
  whenIdle s fun s =>
    if image.length ≤ s.cfg.size then .next { s with buf := s.buf.writeList 0 image } else .refused .imageTooLong

/-- The host sets the initial pc (70_reset_and_hazards.md R262, R265). -/
def hostSetPc (pc0 : Word) (s : State) : Host.Outcome State Fault Refusal :=
  whenIdle s fun s => .next (s.setPc pc0)

/-- The host sets the debug flag (10_state.md R31). -/
def hostSetDebug (flag : Bool) (s : State) : Host.Outcome State Fault Refusal :=
  whenIdle s fun s => .next { s with debug := flag }

/-- The first act of `run`: the running flag is set (40_fetch_engine.md R131). -/
def State.startRun (s : State) : State := { s with running := true }

/-- `run()`, up to its first tick; allowed once, in the idle phase (40_fetch_engine.md R131, D24). The loop itself is
`step` repeated. -/
def hostRun (s : State) : Host.Outcome State Fault Refusal :=
  whenIdle s fun s => .next s.startRun

/-- The whole boot sequence of 70_reset_and_hazards.md R265, steps 1 to 5. -/
def boot (c : Config) (image : List Byte) (pc0 : Word) (flag : Bool) : Host.Outcome State Fault Refusal :=
  match construct c with
  | .next s₁ =>
    match initFrom image s₁ with
    | .next s₂ =>
      match hostSetPc pc0 s₂ with
      | .next s₃ =>
        match hostSetDebug flag s₃ with
        | .next s₄ => hostRun s₄
        | o => o
      | o => o
    | o => o
  | o => o

/-- A run has a result exactly when it is halted: the halt record with the final state (40_fetch_engine.md R147). -/
def State.result (s : State) : Option (Halt × State) :=
  if s.phase = .halted then some (s.halt, s) else none

/-- The guest's exit status, `a0` (44_system_syscall.md R213). -/
def State.exitStatus (s : State) : Option Word :=
  if s.phase = .halted ∧ s.halt = .exit then some (s.x Reg.a0) else none

end Sys2Proof.Machine
end

