-- ==== Sys2Proof/Machine/Flags.lean ====
section
/-! DEFINITION. The engine has no flags, condition codes or predicate registers (10_state.md R34): the one condition
an instruction computes is BNE's comparison of two registers. -/

namespace Sys2Proof.Machine

/-- BNE's condition: the whole `bitsXLEN` values differ (43_control.md R192). -/
def State.differ (s : State) (rs1 rs2 : Reg) : Bool := s.x rs1 != s.x rs2

end Sys2Proof.Machine
end

