-- ==== Sys2Proof/Machine/Control.lean ====
section
/-! DEFINITION. JAL, JALR and BNE, which set the pc themselves (43_control.md; 40_fetch_engine.md R143). -/

namespace Sys2Proof.Machine

/-- JAL (43_control.md R190). -/
def execJal (rd : Reg) (imm : BitVec 21) (s : State) : Host.Outcome State Fault Refusal :=
  .next ((s.setX rd s.link).setPc (s.pc + s.immJ imm))

/-- JALR: `rs1` is read before `rd` is written, and bit 0 of the target is kept (43_control.md R191). -/
def execJalr (rd rs1 : Reg) (imm : BitVec 12) (s : State) : Host.Outcome State Fault Refusal :=
  .next ((s.setX rd s.link).setPc (s.x rs1 + s.immI imm))

/-- BNE (43_control.md R192). -/
def execBne (rs1 rs2 : Reg) (imm : BitVec 13) (s : State) : Host.Outcome State Fault Refusal :=
  if s.differ rs1 rs2 then .next (s.setPc (s.pc + s.immB imm)) else .next (s.nextPc .four)

end Sys2Proof.Machine
end

