-- ==== Sys2Proof/Machine/Integer.lean ====
section
/-! DEFINITION. ADD, SUB, SLLI, ADDI, AUIPC (41_integer.md). -/

namespace Sys2Proof.Machine

/-- The common shape of 41_integer.md: write the destination, modulo 2^XLEN, then the generic post-increment (R165,
R166; 40_fetch_engine.md R143). -/
def writeResult (rd : Reg) (v : Word) (s : State) : Host.Outcome State Fault Refusal :=
  .next ((s.setX rd v).nextPc .four)

/-- ADD (41_integer.md R160). -/
def execAdd (rd rs1 rs2 : Reg) (s : State) : Host.Outcome State Fault Refusal :=
  writeResult rd (s.x rs1 + s.x rs2) s

/-- SUB (41_integer.md R161). -/
def execSub (rd rs1 rs2 : Reg) (s : State) : Host.Outcome State Fault Refusal :=
  writeResult rd (s.x rs1 - s.x rs2) s

/-- SLLI (41_integer.md R162). -/
def execSlli (rd rs1 : Reg) (shamt : BitVec 6) (s : State) : Host.Outcome State Fault Refusal :=
  writeResult rd (s.x rs1 <<< shamt.toNat) s

/-- ADDI (41_integer.md R163). -/
def execAddi (rd rs1 : Reg) (imm : BitVec 12) (s : State) : Host.Outcome State Fault Refusal :=
  writeResult rd (s.x rs1 + s.immI imm) s

/-- AUIPC (41_integer.md R164). -/
def execAuipc (rd : Reg) (imm : BitVec 20) (s : State) : Host.Outcome State Fault Refusal :=
  writeResult rd (s.pc + s.immU imm) s

end Sys2Proof.Machine
end

