-- ==== Sys2Proof/Machine/Loads.lean ====
section
/-! DEFINITION. LB and LW (42_loads.md). -/

namespace Sys2Proof.Machine

/-- The common shape of 42_loads.md: a bus load at the effective address; on a fault the load takes it and writes
nothing, also when `rd = x0`. -/
def loadTo (rd : Reg) (a : Word) (w : Width) (s : State) : Host.Outcome State Fault Refusal :=
  match s.memRead a w with
  | .error f => takeFault s f
  | .ok v => .next ((s.setX rd (zext s.cfg.xlen v)).nextPc .four)

/-- LB: one byte, zero-extended (42_loads.md R180). -/
def execLb (rd rs1 : Reg) (imm : BitVec 12) (s : State) : Host.Outcome State Fault Refusal :=
  loadTo rd (s.ea rs1 imm) .w1 s

/-- LW: a full machine word of XLEN/8 bytes (42_loads.md R181). -/
def execLw (rd rs1 : Reg) (imm : BitVec 12) (s : State) : Host.Outcome State Fault Refusal :=
  loadTo rd (s.ea rs1 imm) s.cfg.xlen.width s

end Sys2Proof.Machine
end

