-- ==== Sys2Proof/Machine/System.lean ====
section
/-! DEFINITION. ECALL and the syscall trap dispatcher (44_system_syscall.md). -/

namespace Sys2Proof.Machine

/-- The number of `write` (44_system_syscall.md R205). -/
def sysWriteNum : Word := 64
/-- The number of `exit` (44_system_syscall.md R205). -/
def sysExitNum : Word := 93

/-- `write`: the byte range is read through the bus, recorded, and `a0` becomes 0; or the bus fault is taken with none
of these (44_system_syscall.md R211, R212). -/
def sysWrite (args : Vector Word 7) (s : State) : Host.Outcome State Fault Refusal :=
  match s.readBytes args[1] args[2].toNat with
  | .error f => takeFault s f
  | .ok bytes => .next (((s.emit (.writeOut args[0] bytes)).setX Reg.a0 0).nextPc .four)

/-- `exit`: the engine halts without a fault, and the pc still advances (44_system_syscall.md R213). -/
def sysExit (args : Vector Word 7) (s : State) : Host.Outcome State Fault Refusal :=
  .next ((({ s with running := false, halt := .exit } : State).emit (.exitDiag args[0] (args[1] == 0))).nextPc .four)

/-- Any other number: no register and no memory effect (44_system_syscall.md R214). -/
def sysOther (s : State) : Host.Outcome State Fault Refusal := .next (s.nextPc .four)

/-- ECALL: the arguments are read once, the syscall is traced, then dispatched by `zext_64(a7)`
(44_system_syscall.md R200, R202 to R206). -/
def execEcall (s : State) : Host.Outcome State Fault Refusal :=
  if s.syscallNum = sysWriteNum then sysWrite s.syscallArgs (s.emit (.syscallTrace s.syscallNum s.syscallArgs))
  else if s.syscallNum = sysExitNum then sysExit s.syscallArgs (s.emit (.syscallTrace s.syscallNum s.syscallArgs))
  else sysOther (s.emit (.syscallTrace s.syscallNum s.syscallArgs))

end Sys2Proof.Machine
end

