-- ==== Sys2Proof/WellFormed.lean ====
section
/-! DEFINITION. Which instruction terms an encoding can hold, at a register width. -/

namespace Sys2Proof

/-- The checks the encodings imply: the shift amount is below XLEN (30_encoding.md R99, 41_integer.md R162), and a
jump or branch offset is even (30_encoding.md R97, R98). Every other field takes every value. -/
def Instr.wf (x : Xlen) : Instr → Bool
  | .add _ _ _ => true
  | .sub _ _ _ => true
  | .slli _ _ shamt => decide (shamt.toNat < x.bits)
  | .addi _ _ _ => true
  | .auipc _ _ => true
  | .lb _ _ _ => true
  | .lw _ _ _ => true
  | .jal _ imm => !imm.getLsbD 0
  | .jalr _ _ _ => true
  | .bne _ _ imm => !imm.getLsbD 0
  | .ecall => true

end Sys2Proof
end

