-- ==== Sys2Proof/Decode.lean ====
section
/-! DEFINITION. The decoder of 30_encoding.md (R90 to R109), total on any bits and any bytes, and the encoder written
from the format table R94 and the columns of R100. -/

namespace Sys2Proof

/-- What the decoder answers (10_state.md R40): an operation of the dispatch subset, the illegal marker, or "some
valid operation outside the dispatch subset" (30_encoding.md R103). -/
inductive Decoded where
  | op (i : Instr)
  | illegal
  | unimplemented
  deriving DecidableEq, Repr

/-- One row of the opcode map (30_encoding.md R100). -/
structure Row where
  mnemonic : String
  bits     : BitVec 32
  mask     : BitVec 32
  deriving DecidableEq, Repr

/-- "a word `w` selects the row when `w & mask = match`" (30_encoding.md R100). -/
def Row.selects (r : Row) (w : BitVec 32) : Bool := w &&& r.mask == r.bits

def rowAdd : Row := ⟨"ADD", 0x00000033#32, 0xFE00707F#32⟩
def rowSub : Row := ⟨"SUB", 0x40000033#32, 0xFE00707F#32⟩
/-- SLLI's mask depends on XLEN (30_encoding.md R99, R100). -/
def rowSlli (x : Xlen) : Row :=
  ⟨"SLLI", 0x00001013#32, match x with | .rv64 => 0xFC00707F#32 | .rv32 => 0xFE00707F#32⟩
def rowAddi : Row := ⟨"ADDI", 0x00000013#32, 0x0000707F#32⟩
def rowAuipc : Row := ⟨"AUIPC", 0x00000017#32, 0x0000007F#32⟩
def rowLb : Row := ⟨"LB", 0x00000003#32, 0x0000707F#32⟩
def rowLw : Row := ⟨"LW", 0x00002003#32, 0x0000707F#32⟩
def rowJal : Row := ⟨"JAL", 0x0000006F#32, 0x0000007F#32⟩
def rowJalr : Row := ⟨"JALR", 0x00000067#32, 0x0000707F#32⟩
def rowBne : Row := ⟨"BNE", 0x00001063#32, 0x0000707F#32⟩
def rowEcall : Row := ⟨"ECALL", 0x00000073#32, 0xFFFFFFFF#32⟩

/-- The opcode map (30_encoding.md R100). -/
def rows (x : Xlen) : List Row :=
  [rowAdd, rowSub, rowSlli x, rowAddi, rowAuipc, rowLb, rowLw, rowJal, rowJalr, rowBne, rowEcall]

/-- `rd = word[11:7]` (30_encoding.md R94). -/
def rdOf (w : BitVec 32) : Reg := (w.extractLsb' 7 5).toFin
/-- `rs1 = word[19:15]` (30_encoding.md R94). -/
def rs1Of (w : BitVec 32) : Reg := (w.extractLsb' 15 5).toFin
/-- `rs2 = word[24:20]` (30_encoding.md R94). -/
def rs2Of (w : BitVec 32) : Reg := (w.extractLsb' 20 5).toFin
/-- The bits `imm_I` extends (30_encoding.md R95). -/
def immIOf (w : BitVec 32) : BitVec 12 := w.extractLsb' 20 12
/-- AUIPC's `word[31:12]` (30_encoding.md R96). -/
def immUOf (w : BitVec 32) : BitVec 20 := w.extractLsb' 12 20
/-- The bits `imm_J` extends: `word[31] ++ word[19:12] ++ word[20] ++ word[30:21] ++ 0` (30_encoding.md R97). -/
def immJOf (w : BitVec 32) : BitVec 21 :=
  w.extractLsb' 31 1 ++ w.extractLsb' 12 8 ++ w.extractLsb' 20 1 ++ w.extractLsb' 21 10 ++ 0#1
/-- The bits `imm_B` extends: `word[31] ++ word[7] ++ word[30:25] ++ word[11:8] ++ 0` (30_encoding.md R98). -/
def immBOf (w : BitVec 32) : BitVec 13 :=
  w.extractLsb' 31 1 ++ w.extractLsb' 7 1 ++ w.extractLsb' 25 6 ++ w.extractLsb' 8 4 ++ 0#1
/-- The shift amount `word[25:20]`; at XLEN = 32 the row's mask holds `word[25]` at 0, so this is `word[24:20]`
(30_encoding.md R99). -/
def shamtOf (w : BitVec 32) : BitVec 6 := w.extractLsb' 20 6

/-- The row a word selects, with its fields (30_encoding.md R100, R102). The rows do not overlap
(`Sys2Proof.Laws.rows_disjoint`), so their order here decides nothing. -/
def decodeRow (x : Xlen) (w : BitVec 32) : Option Instr :=
  if rowAdd.selects w then some (.add (rdOf w) (rs1Of w) (rs2Of w))
  else if rowSub.selects w then some (.sub (rdOf w) (rs1Of w) (rs2Of w))
  else if (rowSlli x).selects w then some (.slli (rdOf w) (rs1Of w) (shamtOf w))
  else if rowAddi.selects w then some (.addi (rdOf w) (rs1Of w) (immIOf w))
  else if rowAuipc.selects w then some (.auipc (rdOf w) (immUOf w))
  else if rowLb.selects w then some (.lb (rdOf w) (rs1Of w) (immIOf w))
  else if rowLw.selects w then some (.lw (rdOf w) (rs1Of w) (immIOf w))
  else if rowJal.selects w then some (.jal (rdOf w) (immJOf w))
  else if rowJalr.selects w then some (.jalr (rdOf w) (rs1Of w) (immIOf w))
  else if rowBne.selects w then some (.bne (rs1Of w) (rs2Of w) (immBOf w))
  else if rowEcall.selects w then some .ecall
  else none

/-- The SLLI words that XLEN = 32 reserves: SLLI in every other bit, with `word[25] = 1` (30_encoding.md R99, D14). -/
def reservedSlli (x : Xlen) (w : BitVec 32) : Bool :=
  decide (x = .rv32) && (w &&& 0xFC00707F#32 == 0x00001013#32) && w.getLsbD 25

/-- The verdict CLASSIFY_OTHER as a decoder answer (30_encoding.md R103). -/
def decodeOther (c : Config) (len : ILen) (bits : BitVec 32) : Decoded :=
  match c.classify.verdict len bits with
  | .illegal => .illegal
  | .unimplemented => .unimplemented

/-- `Decode(len, bits)` (30_encoding.md R103, R109); a 16-bit parcel is given zero-extended. -/
def decode (c : Config) (len : ILen) (bits : BitVec 32) : Decoded :=
  match len with
  | .two => decodeOther c .two bits
  | .four =>
    match decodeRow c.xlen bits with
    | some i => .op i
    | none => if reservedSlli c.xlen bits then .illegal else decodeOther c .four bits

/-- The length an instruction's first parcel gives it (30_encoding.md R90; 40_fetch_engine.md R136). -/
def lenOf (lo : BitVec 16) : ILen := if lo.extractLsb' 0 2 = 3#2 then .four else .two

/-- The word of a 4-byte instruction, "high halfword in the upper 16 bits" (30_encoding.md R91). -/
def composeWord (hi lo : BitVec 16) : BitVec 32 := hi ++ lo

/-- A parcel from its two bytes, the lower address first (20_memory.md R59). -/
def parcelOf (b0 b1 : Byte) : BitVec 16 := b1 ++ b0

/-- The decoder on a byte stream: its answer and the bytes after the instruction, or `none` where the stream ends
inside it (30_encoding.md R110: the first parcel alone tells the length). -/
def decodeBytes (c : Config) : List Byte → Option (Decoded × List Byte)
  | b0 :: b1 :: rest =>
    match lenOf (parcelOf b0 b1), rest with
    | .two, _ => some (decode c .two ((parcelOf b0 b1).setWidth 32), rest)
    | .four, b2 :: b3 :: rest' => some (decode c .four (composeWord (parcelOf b2 b3) (parcelOf b0 b1)), rest')
    | .four, _ => none
  | _ => none

/-- The fetched length of a decoded operation: no 16-bit parcel decodes to one (30_encoding.md R109,
40_fetch_engine.md R134). -/
def Instr.len (_ : Instr) : ILen := .four

/-- R format: funct7, rs2, rs1, funct3, rd, opcode (30_encoding.md R94). -/
def encR (funct7 : BitVec 7) (rs2 rs1 : Reg) (funct3 : BitVec 3) (rd : Reg) (opcode : BitVec 7) : BitVec 32 :=
  funct7 ++ BitVec.ofFin (w := 5) rs2 ++ BitVec.ofFin (w := 5) rs1 ++ funct3 ++ BitVec.ofFin (w := 5) rd ++ opcode

/-- I format: imm[11:0], rs1, funct3, rd, opcode (30_encoding.md R94). -/
def encI (imm : BitVec 12) (rs1 : Reg) (funct3 : BitVec 3) (rd : Reg) (opcode : BitVec 7) : BitVec 32 :=
  imm ++ BitVec.ofFin (w := 5) rs1 ++ funct3 ++ BitVec.ofFin (w := 5) rd ++ opcode

/-- U format: imm[31:12], rd, opcode (30_encoding.md R94). -/
def encU (imm : BitVec 20) (rd : Reg) (opcode : BitVec 7) : BitVec 32 :=
  imm ++ BitVec.ofFin (w := 5) rd ++ opcode

/-- J format: imm[20], imm[10:1], imm[11], imm[19:12], rd, opcode (30_encoding.md R94). -/
def encJ (imm : BitVec 21) (rd : Reg) (opcode : BitVec 7) : BitVec 32 :=
  imm.extractLsb' 20 1 ++ imm.extractLsb' 1 10 ++ imm.extractLsb' 11 1 ++ imm.extractLsb' 12 8 ++
    BitVec.ofFin (w := 5) rd ++ opcode

/-- B format: imm[12], imm[10:5], rs2, rs1, funct3, imm[4:1], imm[11], opcode (30_encoding.md R94). -/
def encB (imm : BitVec 13) (rs2 rs1 : Reg) (funct3 : BitVec 3) (opcode : BitVec 7) : BitVec 32 :=
  imm.extractLsb' 12 1 ++ imm.extractLsb' 5 6 ++ BitVec.ofFin (w := 5) rs2 ++ BitVec.ofFin (w := 5) rs1 ++ funct3 ++
    imm.extractLsb' 1 4 ++ imm.extractLsb' 11 1 ++ opcode

/-- The word of a well-formed instruction, from the format, opcode, funct3 and funct7 columns of 30_encoding.md R100. -/
def encode : Instr → BitVec 32
  | .add rd rs1 rs2 => encR 0b0000000#7 rs2 rs1 0b000#3 rd 0b0110011#7
  | .sub rd rs1 rs2 => encR 0b0100000#7 rs2 rs1 0b000#3 rd 0b0110011#7
  | .slli rd rs1 shamt => encI (0b000000#6 ++ shamt) rs1 0b001#3 rd 0b0010011#7
  | .addi rd rs1 imm => encI imm rs1 0b000#3 rd 0b0010011#7
  | .auipc rd imm => encU imm rd 0b0010111#7
  | .lb rd rs1 imm => encI imm rs1 0b000#3 rd 0b0000011#7
  | .lw rd rs1 imm => encI imm rs1 0b010#3 rd 0b0000011#7
  | .jal rd imm => encJ imm rd 0b1101111#7
  | .jalr rd rs1 imm => encI imm rs1 0b000#3 rd 0b1100111#7
  | .bne rs1 rs2 imm => encB imm rs2 rs1 0b001#3 0b1100011#7
  | .ecall => 0x00000073#32

/-- The four bytes of a 32-bit word as memory holds them, the lowest address first (20_memory.md R59). -/
def wordBytes (w : BitVec 32) : List Byte :=
  [w.extractLsb' 0 8, w.extractLsb' 8 8, w.extractLsb' 16 8, w.extractLsb' 24 8]

/-- The bytes of an instruction in memory. -/
def encodeBytes (i : Instr) : List Byte := wordBytes (encode i)

/-- The word an opcode-table row's bits stand for: the low `nbits` bits of `w`, every bit above them 0. -/
def tableWord (nbits w : Nat) : BitVec 32 := BitVec.ofNat 32 (w % 2 ^ nbits)

/-- The instruction the decoder reads from an opcode-table word laid out in memory order, under the configuration of
the reset state (XLEN = 64, the width of the table's own SLLI mask). -/
def decodeTableWord (nbits w : Nat) : Option Instr :=
  match decodeBytes Config.standard (wordBytes (tableWord nbits w)) with
  | some (.op i, _) => some i
  | _ => none

end Sys2Proof
end

