-- ==== Sys2Proof/Machine/Fetch.lean ====
section
/-! DEFINITION. Fetching one instruction (40_fetch_engine.md R135 to R138). -/

namespace Sys2Proof.Machine

/-- A fetched instruction: its length, and its bits, a 16-bit parcel zero-extended (40_fetch_engine.md R134, R139). -/
structure Fetched where
  len  : ILen
  bits : BitVec 32
  deriving DecidableEq, Repr

/-- A parcel is a scalar 2-byte bus load (40_fetch_engine.md R135, R138). -/
def State.fetchParcel (s : State) (a : Word) : Except Fault (BitVec 16) :=
  match s.memRead a .w2 with
  | .error f => .error f
  | .ok v => .ok (v.setWidth 16)

/-- The page check's condition: the offset from BASE is the last parcel of a 4096-byte page (40_fetch_engine.md R137,
90_conflicts.md C1). -/
def straddlesPage (c : Config) (pc : Word) : Bool :=
  (pc.toNat - (addressRange c).1) % Config.page == Config.page - 2

/-- The address of the second parcel, `pc + 2` modulo 2^XLEN (40_fetch_engine.md R138). -/
def State.secondPc (s : State) : Word := trunc s.cfg.xlen (s.pc + 2#64)

/-- The fetch steps of a tick in their order (40_fetch_engine.md R133). -/
def State.fetch (s : State) : Except Fault Fetched :=
  match s.fetchParcel s.pc with
  | .error f => .error f
  | .ok lo =>
    match lenOf lo with
    | .two => .ok { len := .two, bits := lo.setWidth 32 }
    | .four =>
      if straddlesPage s.cfg s.pc then .error (.illegalInstruction (lo.setWidth 32) s.pc)
      else
        match s.fetchParcel s.secondPc with
        | .error f => .error f
        | .ok hi => .ok { len := .four, bits := composeWord hi lo }

end Sys2Proof.Machine
end

