-- ==== Sys2Proof/Machine/Tick.lean ====
section
/-! DEFINITION. One tick together with what the run loop does with its outcome (40_fetch_engine.md R131, R133). The
outcome of 00_scope.md R16 is read off the next state: `Ok` leaves the halt record `none` or sets it to `exit`. -/

namespace Sys2Proof.Machine

/-- The trace event of a decoded instruction, under a set debug flag (40_fetch_engine.md R140). -/
def State.traceInstr (s : State) (d : Fetched) : State :=
  if s.debug then s.emit (.instrTrace s.pc d.len d.bits) else s

/-- Decode and dispatch of fetched bits (40_fetch_engine.md R133, R139 to R142, R145). -/
def dispatch (s : State) (d : Fetched) : Host.Outcome State Fault Refusal :=
  match decode s.cfg d.len d.bits with
  | .illegal => takeFault s (.illegalInstruction d.bits s.pc)
  | .unimplemented => .next ((s.traceInstr d).haltWith (.unimplemented d.bits s.pc))
  | .op i => exec i (s.traceInstr d)

/-- `tick`, refused outside the running phase (40_fetch_engine.md R133, R146). -/
def tick (s : State) : Host.Outcome State Fault Refusal :=
  if s.phase = .running then
    match s.fetch with
    | .error f => takeFault s f
    | .ok d => dispatch s d
  else .refused .notRunning

end Sys2Proof.Machine
end

