-- ==== Sys2Proof/Machine/Step.lean ====
section
/-! DEFINITION. One transition of the engine, by its phase (40_fetch_engine.md R130). -/

namespace Sys2Proof.Machine

/-- Idle: the host calls `run`, which sets the running flag (R131; DESIGN CHOICE, unsafe, notes/assumptions/6.md).
Running: one tick, its outcome taken by the run loop (R131, R133, R145). Halted: the engine stays as it is (R130,
R146; DESIGN CHOICE, safe, notes/assumptions/7.md). -/
def step (s : State) : Host.Outcome State Fault Refusal :=
  match s.phase with
  | .idle => hostRun s
  | .running => tick s
  | .halted => .next s

/-- The state in which the very next step runs the given word: the word stands in memory at the pc, and the run loop is
on (notes/assumptions/8.md). The word is fetched where the pc is even, inside the range and not at the end of a page. -/
def State.withFetchWord (s : State) (nbits w : Nat) : State :=
  { s with
    running := true
    halt := .none
    buf := s.buf.writeList (s.pc.toNat - s.cfg.base) (wordBytes (tableWord nbits w)) }

end Sys2Proof.Machine
end

