-- ==== Sys2Proof/Machine/Asm.lean ====
section
/-! DEFINITION. The assembler text of 30_encoding.md R120, the register names of 10_state.md R24 and R26, and the
pseudo-instructions of R121. None of it is part of the hardware and no step reads it (D38); it stands here because the
spec's rules R120 and R121 describe it. -/

namespace Sys2Proof.Machine

/-- The ABI names of the general-purpose registers (10_state.md R24). -/
def regNames : Vector String 32 :=
  #v["zero", "ra", "sp", "gp", "tp", "t0", "t1", "t2", "s0", "s1", "a0", "a1", "a2", "a3", "a4", "a5",
    "a6", "a7", "s2", "s3", "s4", "s5", "s6", "s7", "s8", "s9", "s10", "s11", "t3", "t4", "t5", "t6"]

/-- The ABI names of the floating-point registers (10_state.md R26). -/
def fregNames : Vector String 32 :=
  #v["ft0", "ft1", "ft2", "ft3", "ft4", "ft5", "ft6", "ft7", "fs0", "fs1", "fa0", "fa1", "fa2", "fa3", "fa4", "fa5",
    "fa6", "fa7", "fs2", "fs3", "fs4", "fs5", "fs6", "fs7", "fs8", "fs9", "fs10", "fs11", "ft8", "ft9", "ft10", "ft11"]

/-- The ABI name of a general-purpose register. -/
def regName (r : Reg) : String := regNames[r.val]

/-- The ABI name of a floating-point register. -/
def fregName (r : FReg) : String := fregNames[r.val]

/-- The assembler text of an instruction, immediates in decimal (30_encoding.md R120). -/
def Instr.asm : Instr → String
  | .add rd rs1 rs2 => "add " ++ regName rd ++ ", " ++ regName rs1 ++ ", " ++ regName rs2
  | .sub rd rs1 rs2 => "sub " ++ regName rd ++ ", " ++ regName rs1 ++ ", " ++ regName rs2
  | .slli rd rs1 shamt => "slli " ++ regName rd ++ ", " ++ regName rs1 ++ ", " ++ toString shamt.toNat
  | .addi rd rs1 imm => "addi " ++ regName rd ++ ", " ++ regName rs1 ++ ", " ++ toString imm.toInt
  | .auipc rd imm => "auipc " ++ regName rd ++ ", " ++ toString imm.toNat
  | .lb rd rs1 imm => "lb " ++ regName rd ++ ", " ++ toString imm.toInt ++ "(" ++ regName rs1 ++ ")"
  | .lw rd rs1 imm => "lw " ++ regName rd ++ ", " ++ toString imm.toInt ++ "(" ++ regName rs1 ++ ")"
  | .jal rd imm => "jal " ++ regName rd ++ ", " ++ toString imm.toInt
  | .jalr rd rs1 imm => "jalr " ++ regName rd ++ ", " ++ toString imm.toInt ++ "(" ++ regName rs1 ++ ")"
  | .bne rs1 rs2 imm => "bne " ++ regName rs1 ++ ", " ++ regName rs2 ++ ", " ++ toString imm.toInt
  | .ecall => "ecall"

/-- The pseudo-instructions that expand to the eleven instructions (30_encoding.md R121). `call`, `tail` and `lla` take
a 32-bit offset from their own address. -/
inductive Pseudo where
  | nop
  | mv (rd rs : Reg)
  | li (rd : Reg) (imm : BitVec 12)
  | neg (rd rs : Reg)
  | j (offset : BitVec 21)
  | jal (offset : BitVec 21)
  | jr (rs : Reg)
  | jalr (rs : Reg)
  | ret
  | call (offset : BitVec 32)
  | tail (offset : BitVec 32)
  | bnez (rs : Reg) (offset : BitVec 13)
  | lla (rd : Reg) (offset : BitVec 32)
  deriving DecidableEq, Repr

/-- `hi(o) = (o + 0x800) >> 12` (30_encoding.md R121). -/
def hiOf (o : BitVec 32) : BitVec 20 := (o + 0x800#32).extractLsb' 12 20

/-- `lo(o) = o - (hi(o) << 12)`, a signed 12-bit value (30_encoding.md R121). -/
def loOf (o : BitVec 32) : BitVec 12 := o.extractLsb' 0 12

/-- `ra` is `x1`, `t1` is `x6` (10_state.md R24). -/
def Reg.ra : Reg := 1
def Reg.t1 : Reg := 6

/-- The expansion of a pseudo-instruction (30_encoding.md R121). -/
def Pseudo.expand : Pseudo → List Instr
  | .nop => [.addi Reg.zero Reg.zero 0]
  | .mv rd rs => [.addi rd rs 0]
  | .li rd imm => [.addi rd Reg.zero imm]
  | .neg rd rs => [.sub rd Reg.zero rs]
  | .j offset => [.jal Reg.zero offset]
  | .jal offset => [.jal Reg.ra offset]
  | .jr rs => [.jalr Reg.zero rs 0]
  | .jalr rs => [.jalr Reg.ra rs 0]
  | .ret => [.jalr Reg.zero Reg.ra 0]
  | .call offset => [.auipc Reg.ra (hiOf offset), .jalr Reg.ra Reg.ra (loOf offset)]
  | .tail offset => [.auipc Reg.t1 (hiOf offset), .jalr Reg.zero Reg.t1 (loOf offset)]
  | .bnez rs offset => [.bne rs Reg.zero offset]
  | .lla rd offset => [.auipc rd (hiOf offset), .addi rd rd (loOf offset)]

end Sys2Proof.Machine
end

