-- ==== Sys2Proof/Safety.lean ====
section
/-! DEFINITION. The terms claims use: the invariant of the engine, what two states share, and what a safe run is. -/

namespace Sys2Proof.Machine

/-- A value that is a `bitsXLEN` (00_scope.md R9): its bits above XLEN are 0. -/
abbrev fits (x : Xlen) (v : Word) : Prop := v.toNat < 2 ^ x.bits

/-- `2^XLEN` of a state. -/
def State.modulus (s : State) : Nat := 2 ^ s.cfg.xlen.bits

/-- The addresses a fault carries are `bitsXLEN` values, and the kind is one the engine delivers (60_exceptions.md
R230, R231: `AddressOutOfRange`, `Unknown` and the store direction reach no halt record). -/
def Fault.delivered (x : Xlen) : Fault → Prop
  | .loadAddressFault a => fits x a
  | .storeAddressFault _ => False
  | .unalignedAccess a => fits x a
  | .addressOutOfRange _ => False
  | .illegalInstruction _ pc => fits x pc
  | .unknown => False

/-- A halt record the engine can hold. -/
def Halt.ok (x : Xlen) : Halt → Prop
  | .none => True
  | .exit => True
  | .fault f => f.delivered x
  | .unimplemented _ pc => fits x pc

/-- The register values an event records are `bitsXLEN` values. -/
def Event.ok (x : Xlen) : Event → Prop
  | .instrTrace pc _ _ => fits x pc
  | .syscallTrace num args => fits x num ∧ ∀ a ∈ args, fits x a
  | .writeOut fd _ => fits x fd
  | .exitDiag status _ => fits x status
  | .haltReport h => h.ok x

/-- The invariant of the engine: a legal range, a canonical buffer inside it, `bitsXLEN` values everywhere, and a halt
record only where the engine has stopped (10_state.md R32). -/
structure State.Inv (s : State) : Prop where
  range       : s.cfg.wf
  bufWf       : Memory.wf s.buf
  bufInside   : ∀ c ∈ s.buf, c.1 < s.cfg.size
  gprFits     : ∀ r, fits s.cfg.xlen (s.x r)
  fprFits     : ∀ r, fits s.cfg.xlen (s.f r)
  pcFits      : fits s.cfg.xlen s.pc
  haltOk      : s.halt.ok s.cfg.xlen
  logOk       : ∀ e ∈ s.log, e.ok s.cfg.xlen
  runningNone : s.running = true → s.halt = .none

/-- Every general-purpose register reads as before. -/
def SameRegs (s t : State) : Prop := ∀ r, t.x r = s.x r

/-- Every general-purpose register but one reads as before. -/
def SameRegsBut (rd : Reg) (s t : State) : Prop := ∀ r, r ≠ rd → t.x r = s.x r

/-- Every floating-point register reads as before. -/
def SameFRegs (s t : State) : Prop := ∀ r, t.f r = s.f r

/-- Every byte of memory reads as before, and the same addresses exist. -/
def SameMem (s t : State) : Prop := ∀ a, t.byteAt a = s.byteAt a

/-- The construction parameters, both flags and the halt record are as before. -/
def SameControl (s t : State) : Prop :=
  t.cfg = s.cfg ∧ t.running = s.running ∧ t.debug = s.debug ∧ t.halt = s.halt

/-- The frame of a register-writing instruction: nothing but `rd` and the pc changes. -/
def OnlyRegAndPc (rd : Reg) (s t : State) : Prop :=
  SameRegsBut rd s t ∧ SameFRegs s t ∧ SameMem s t ∧ SameControl s t ∧ t.log = s.log

/-- The frame of an instruction that writes no register: nothing but the pc changes. -/
def OnlyPc (s t : State) : Prop :=
  SameRegs s t ∧ SameFRegs s t ∧ SameMem s t ∧ SameControl s t ∧ t.log = s.log

/-- The pc has advanced by a fetched length of 4, modulo 2^XLEN. -/
def Advanced (s t : State) : Prop := t.pc.toNat = (s.pc.toNat + 4) % s.modulus

/-- The engine has halted on `h` with nothing else changed but the log, which gained `evs` and the report
(40_fetch_engine.md R144, R145). -/
def HaltedOn (h : Halt) (evs : List Event) (s t : State) : Prop :=
  SameRegs s t ∧ SameFRegs s t ∧ SameMem s t ∧ t.cfg = s.cfg ∧ t.debug = s.debug ∧ t.pc = s.pc ∧
    t.running = false ∧ t.halt = h ∧ t.log = s.log ++ evs ++ [.haltReport h]

/-- The trace events the tick of a decoded instruction begins with (40_fetch_engine.md R140). -/
def traceEvents (s : State) (d : Fetched) : List Event :=
  if s.debug then [.instrTrace s.pc d.len d.bits] else []

/-- Two states that differ at most in the debug flag, the diagnostic log and the floating-point file. -/
def SameGuestView (s s' : State) : Prop :=
  s'.cfg = s.cfg ∧ s'.gpr = s.gpr ∧ s'.pc = s.pc ∧ s'.running = s.running ∧ s'.halt = s.halt ∧ s'.buf = s.buf

/-- The same engine built with another CLASSIFY_OTHER (00_scope.md R13, D7). -/
def State.withClassify (s : State) (k : Classify) : State := { s with cfg := { s.cfg with classify := k } }

/-- A state no fault and no unimplemented operation has stopped. -/
def State.Safe (s : State) : Prop := s.halt = .none ∨ s.halt = .exit

/-- A run of `n` steps is safe: every state it passes through is. -/
def SafeFor (n : Nat) (s : State) : Prop :=
  ∀ k, k ≤ n → ∀ t, Sys2Proof.core.run k s = .next t → State.Safe t

/-- The register an operation may write, `a0` for ECALL's `write` (44_system_syscall.md R210); BNE writes none. -/
def Instr.dest : Instr → Option Reg
  | .add rd _ _ => some rd
  | .sub rd _ _ => some rd
  | .slli rd _ _ => some rd
  | .addi rd _ _ => some rd
  | .auipc rd _ => some rd
  | .lb rd _ _ => some rd
  | .lw rd _ _ => some rd
  | .jal rd _ => some rd
  | .jalr rd _ _ => some rd
  | .bne _ _ _ => none
  | .ecall => some Reg.a0

/-- The meanings of a list of operations one after the other, for claims about a pseudo-instruction's expansion. -/
def execAll : List Instr → State → Host.Outcome State Fault Refusal
  | [], s => .next s
  | i :: is, s =>
    match exec i s with
    | .next t => execAll is t
    | o => o

/-- The parcel two bytes of memory make, lower address first, as a number (20_memory.md R59). -/
def parcelNat (b0 b1 : Byte) : Nat := b0.toNat + 256 * b1.toNat

end Sys2Proof.Machine
end

