-- ==== Sys2Proof/Certificates/Slice0/Obligations.lean ====
section
/-! DEFINITION. The statements about the engine, in the order of OBLIGATIONS.json. -/

open Sys2Proof Sys2Proof.Machine

/-! ### Construction and the host -/

/-- Construction zeroes both register files, the pc, both flags, the halt record, the log and the memory
(70_reset_and_hazards.md R260, R261; 20_memory.md R51). Rests on the spec's own decisions D18, D26 and D31. -/
def Obligations.ConstructionState : Prop :=
  ∀ c : Config, c.wf → ∃ s, construct c = .next s ∧ s.cfg = c ∧ (∀ r, s.x r = 0) ∧ (∀ r, s.f r = 0) ∧ s.pc = 0 ∧
    s.running = false ∧ s.debug = false ∧ s.halt = .none ∧ s.log = [] ∧
    ∀ a, c.base ≤ a → a ≤ c.top → s.byteAt a = some 0

/-- A range that is empty or reaches past 2^XLEN is refused, and every other is accepted (00_scope.md R10). Rests on
the spec's own decision D19. -/
def Obligations.ConstructionRefusal : Prop :=
  ∀ c : Config, (construct c = .refused .badRange ↔ (c.size = 0 ∨ 2 ^ c.xlen.bits < c.base + c.size)) ∧
    (¬(c.size = 0 ∨ 2 ^ c.xlen.bits < c.base + c.size) → ∃ s, construct c = .next s)

/-- `init_from` places byte `i` of the image at guest address BASE + i, keeps every other byte and all other state,
is idempotent, and is refused for a longer image or outside the idle phase (20_memory.md R70). Rests on the spec's
own decision D17. -/
def Obligations.InitFromPlacesImage : Prop :=
  ∀ (s : State) (image : List Byte), s.Inv →
    (s.phase = .idle → image.length ≤ s.cfg.size → ∃ t, initFrom image s = .next t ∧
      (∀ i, i < image.length → t.byteAt (s.cfg.base + i) = image[i]?) ∧
      (∀ a, a < s.cfg.base ∨ s.cfg.base + image.length ≤ a → t.byteAt a = s.byteAt a) ∧
      SameRegs s t ∧ SameFRegs s t ∧ SameControl s t ∧ t.pc = s.pc ∧ t.log = s.log ∧
      initFrom image t = .next t) ∧
    (s.phase = .idle → s.cfg.size < image.length → initFrom image s = .refused .imageTooLong) ∧
    (s.phase ≠ .idle → initFrom image s = .refused .notIdle)

/-- The boot sequence of 70_reset_and_hazards.md R265 leaves a running engine with the image at BASE, the debug flag
as given and the pc at PC0 cut to XLEN bits. That a PC0 wider than XLEN bits is cut is the model's choice
(notes/assumptions/12.md). Rests on the spec's own decisions D17, D18, D24, D26 and D31. -/
def Obligations.BootSequence : Prop :=
  ∀ (c : Config) (image : List Byte) (pc0 : Word) (flag : Bool), c.wf → image.length ≤ c.size →
    ∃ t, boot c image pc0 flag = .next t ∧ t.Inv ∧ t.phase = .running ∧ t.cfg = c ∧
      t.pc.toNat = pc0.toNat % 2 ^ c.xlen.bits ∧ t.debug = flag ∧ (∀ r, t.x r = 0) ∧ (∀ r, t.f r = 0) ∧ t.log = [] ∧
      ∀ i, i < c.size → t.byteAt (c.base + i) = some (image[i]?.getD 0)

/-! ### The register files -/

/-- `x0` reads 0 whatever is written, and a write to any other register is read back by it and by no other
(10_state.md R21, R22). -/
def Obligations.RegisterFile : Prop :=
  ∀ (s : State) (r q : Reg) (v : Word), s.x 0 = 0 ∧ s.setX 0 v = s ∧
    (r ≠ 0 → ((s.setX r v).x r).toNat = v.toNat % s.modulus) ∧ (q ≠ r → (s.setX r v).x q = s.x q)

/-- The floating-point file has no hardwired register: every one of the 32 reads back what is written to it
(10_state.md R26). Rests on the spec's own decision D26. -/
def Obligations.FloatRegisterFile : Prop :=
  ∀ (s : State) (r q : FReg) (v : Word), ((s.setF r v).f r).toNat = v.toNat % s.modulus ∧
    (q ≠ r → (s.setF r v).f q = s.f q) ∧ SameRegs s (s.setF r v)

/-! ### The memory controller -/

/-- Alignment is absolute and is checked before bounds: a misaligned access reports `UnalignedAccess` wherever it is,
an aligned one never does, and one byte is always aligned (20_memory.md R57). -/
def Obligations.AlignmentFirst : Prop :=
  ∀ (s : State) (a : Word) (w : Width) (v : BitVec (8 * w.bytes)) (b : Word),
    (a.toNat % w.bytes ≠ 0 → s.memRead a w = .error (.unalignedAccess a) ∧ s.memWrite a w v = .error (.unalignedAccess a)) ∧
    (a.toNat % w.bytes = 0 → s.memRead a w ≠ .error (.unalignedAccess b) ∧ s.memWrite a w v ≠ .error (.unalignedAccess b)) ∧
    a.toNat % Width.w1.bytes = 0

/-- An aligned scalar access whose first or last byte is out of range fails with the address fault of its direction,
carrying its first address (20_memory.md R55, R56, R58). -/
def Obligations.ScalarBoundsFault : Prop :=
  ∀ (s : State) (a : Word) (w : Width) (v : BitVec (8 * w.bytes)), a.toNat % w.bytes = 0 →
    a.toNat < s.cfg.base ∨ s.cfg.top < a.toNat + w.bytes - 1 →
    s.memRead a w = .error (.loadAddressFault a) ∧ s.memWrite a w v = .error (.storeAddressFault a)

/-- A scalar load that is aligned and in range completes, and byte `a + k` of memory is bits `8k+7 : 8k` of its value
(20_memory.md R55, R59). Rests on the spec's own decision D2. -/
def Obligations.ScalarLoadLittleEndian : Prop :=
  ∀ (s : State) (a : Word) (w : Width), a.toNat % w.bytes = 0 → s.cfg.base ≤ a.toNat →
    a.toNat + w.bytes - 1 ≤ s.cfg.top →
    ∃ v, s.memRead a w = .ok v ∧ ∀ k, k < w.bytes → s.byteAt (a.toNat + k) = some (v.extractLsb' (8 * k) 8)

/-- A scalar store that is aligned and in range is read back by the load of the same width, and changes no other byte
and no other state (20_memory.md R56, R59). Rests on the spec's own decision D2. -/
def Obligations.ScalarStoreThenLoad : Prop :=
  ∀ (s : State) (a : Word) (w : Width) (v : BitVec (8 * w.bytes)), s.Inv → a.toNat % w.bytes = 0 →
    s.cfg.base ≤ a.toNat → a.toNat + w.bytes - 1 ≤ s.cfg.top →
    ∃ t, s.memWrite a w v = .ok t ∧ t.memRead a w = .ok v ∧
      (∀ b, b < a.toNat ∨ a.toNat + w.bytes ≤ b → t.byteAt b = s.byteAt b) ∧
      SameRegs s t ∧ SameFRegs s t ∧ SameControl s t ∧ t.pc = s.pc ∧ t.log = s.log

/-- A byte-range read checks the start, then the end boundary `a + len` as an unbounded number, and then returns the
bytes (20_memory.md R60). Rests on the spec's own decision D15. -/
def Obligations.ByteRangeRead : Prop :=
  ∀ (s : State) (a : Word) (len : Nat),
    (¬(s.cfg.base ≤ a.toNat ∧ a.toNat ≤ s.cfg.top) → s.readBytes a len = .error (.loadAddressFault a)) ∧
    (s.cfg.base ≤ a.toNat → a.toNat ≤ s.cfg.top → s.cfg.top < a.toNat + len →
      s.readBytes a len = .error (.loadAddressFault (BitVec.ofNat 64 ((a.toNat + len) % s.modulus)))) ∧
    (s.cfg.base ≤ a.toNat → a.toNat + len ≤ s.cfg.top →
      ∃ bytes, s.readBytes a len = .ok bytes ∧ bytes.length = len ∧
        ∀ k, k < len → s.byteAt (a.toNat + k) = bytes[k]?)

/-- A byte-range write makes the same two checks in the store direction, and then stores exactly its bytes
(20_memory.md R61). Rests on the spec's own decision D15. -/
def Obligations.ByteRangeWrite : Prop :=
  ∀ (s : State) (a : Word) (d : List Byte), s.Inv →
    (¬(s.cfg.base ≤ a.toNat ∧ a.toNat ≤ s.cfg.top) → s.writeBytes a d = .error (.storeAddressFault a)) ∧
    (s.cfg.base ≤ a.toNat → a.toNat ≤ s.cfg.top → s.cfg.top < a.toNat + d.length →
      s.writeBytes a d = .error (.storeAddressFault (BitVec.ofNat 64 ((a.toNat + d.length) % s.modulus)))) ∧
    (s.cfg.base ≤ a.toNat → a.toNat + d.length ≤ s.cfg.top →
      ∃ t, s.writeBytes a d = .ok t ∧ (∀ k, k < d.length → t.byteAt (a.toNat + k) = d[k]?) ∧
        (∀ b, b < a.toNat ∨ a.toNat + d.length ≤ b → t.byteAt b = s.byteAt b) ∧
        SameRegs s t ∧ SameFRegs s t ∧ SameControl s t ∧ t.pc = s.pc ∧ t.log = s.log)

/-- A byte-range access of length 0 succeeds exactly at an address in range, moves no byte, and otherwise raises the
address fault of its direction carrying that address (20_memory.md R62). Rests on the spec's own decision D15. -/
def Obligations.ByteRangeEmpty : Prop :=
  ∀ (s : State) (a : Word),
    (s.cfg.base ≤ a.toNat ∧ a.toNat ≤ s.cfg.top → s.readBytes a 0 = .ok [] ∧ s.writeBytes a [] = .ok s) ∧
    (¬(s.cfg.base ≤ a.toNat ∧ a.toNat ≤ s.cfg.top) →
      s.readBytes a 0 = .error (.loadAddressFault a) ∧ s.writeBytes a [] = .error (.storeAddressFault a))

/-! ### Decoding -/

/-- The length of an instruction is 4 exactly when the two low bits of its first parcel equal 3, and 2 otherwise
(30_encoding.md R90). -/
def Obligations.LengthRule : Prop :=
  ∀ lo : BitVec 16, (lo.toNat % 4 = 3 → lenOf lo = .four) ∧ (lo.toNat % 4 ≠ 3 → lenOf lo = .two)

/-- Words written out from the encodings of 30_encoding.md decode, at XLEN = 64, to the instructions they stand for.
`decodeTableWord` decodes under the parameters of the reset state, which are the model's choice
(notes/assumptions/3.md); at XLEN = 32 the SLLI word here, a shift by 63, is illegal. Rests on the spec's own
decision D6. -/
def Obligations.DecodedWords : Prop :=
  decodeTableWord 32 0b00000000001100010000000010110011 = some (.add 1 2 3) ∧
  decodeTableWord 32 0b01000000001100010000000010110011 = some (.sub 1 2 3) ∧
  decodeTableWord 32 0b00000011111100010001000010010011 = some (.slli 1 2 63#6) ∧
  decodeTableWord 32 0b00000000100000010010000010000011 = some (.lw 1 2 8#12) ∧
  decodeTableWord 32 0b11111111100111111111000001101111 = some (.jal 0 (-8)) ∧
  decodeTableWord 32 0b11111110000000101001110011100011 = some (.bne 5 0 (-8)) ∧
  decodeTableWord 32 0b00000000000000000000000001110011 = some .ecall

/-- Decoding the encoding of a well-formed instruction gives it back, with every operand at every value the encoding
admits, at both register widths and whatever CLASSIFY_OTHER is (30_encoding.md R94 to R103). Rests on the spec's own
decisions D6, D8 and D14. -/
def Obligations.DecodeEncode : Prop :=
  ∀ (c : Config) (i : Instr), i.wf c.xlen = true →
    decode c .four (encode i) = .op i ∧ decodeBytes c (encodeBytes i) = some (.op i, [])

/-- The other direction: whatever decodes to an operation is a 4-byte word, the operation is well-formed, and the
word is its encoding (30_encoding.md R100 to R103, R109). Rests on the spec's own decisions D6, D8 and D14. -/
def Obligations.EncodeDecode : Prop :=
  ∀ (c : Config) (len : ILen) (bits : BitVec 32) (i : Instr), decode c len bits = .op i →
    len = .four ∧ i.wf c.xlen = true ∧ encode i = bits

/-- Everything else gets the verdict of CLASSIFY_OTHER, but for the SLLI words that XLEN = 32 reserves, which are
illegal (30_encoding.md R103, R99, R109). Rests on the spec's own decisions D7, D8 and D14. -/
def Obligations.DecodeOther : Prop :=
  ∀ (c : Config) (bits : BitVec 32),
    (c.classify.verdict .two bits = .illegal → decode c .two bits = .illegal) ∧
    (c.classify.verdict .two bits = .unimplemented → decode c .two bits = .unimplemented) ∧
    (c.xlen = .rv32 → bits &&& 0xFE00707F#32 = 0x02001013#32 → decode c .four bits = .illegal) ∧
    ((∀ i : Instr, i.wf c.xlen = true → encode i ≠ bits) →
      ¬(c.xlen = .rv32 ∧ bits &&& 0xFE00707F#32 = 0x02001013#32) →
      (c.classify.verdict .four bits = .illegal → decode c .four bits = .illegal) ∧
      (c.classify.verdict .four bits = .unimplemented → decode c .four bits = .unimplemented))

/-! ### The tick -/

/-- When fetch and decode give an operation, a step of the running engine is its meaning on the state with the trace
event of a set debug flag added (40_fetch_engine.md R133, R140, R142). -/
def Obligations.StepRunsDecoded : Prop :=
  ∀ (s : State) (d : Fetched) (i : Instr), s.phase = .running → s.fetch = .ok d → decode s.cfg d.len d.bits = .op i →
    step s = exec i { s with log := s.log ++ traceEvents s d }

/-- When the four bytes at an even pc, in range and not at the end of a page, are those of a well-formed instruction,
a step of the running engine is its meaning (40_fetch_engine.md R133 to R142; 30_encoding.md R91, R103). Rests on the
spec's own decisions D2, D3, D4 and D6. -/
def Obligations.StepRunsEncodedBytes : Prop :=
  ∀ (s : State) (i : Instr), s.Inv → s.phase = .running → i.wf s.cfg.xlen = true →
    s.pc.toNat % 2 = 0 → s.cfg.base ≤ s.pc.toNat → s.pc.toNat + 3 ≤ s.cfg.top →
    (s.pc.toNat - s.cfg.base) % 4096 ≠ 4094 →
    (∀ k, k < 4 → s.byteAt (s.pc.toNat + k) = (encodeBytes i)[k]?) →
    step s = exec i { s with log := s.log ++ traceEvents s { len := .four, bits := encode i } }

/-- The first parcel: an odd pc faults with `UnalignedAccess(pc)`, and an even one whose parcel is not in range with
`LoadAddressFault(pc)`, before any effect (40_fetch_engine.md R135). Rests on the spec's own decision D3. -/
def Obligations.FetchFirstParcel : Prop :=
  ∀ s : State, s.phase = .running →
    (s.pc.toNat % 2 = 1 → ∃ t, step s = .next t ∧ HaltedOn (.fault (.unalignedAccess s.pc)) [] s t) ∧
    (s.pc.toNat % 2 = 0 → s.pc.toNat < s.cfg.base ∨ s.cfg.top < s.pc.toNat + 1 →
      ∃ t, step s = .next t ∧ HaltedOn (.fault (.loadAddressFault s.pc)) [] s t) ∧
    (s.pc.toNat % 2 = 0 → s.cfg.base ≤ s.pc.toNat → s.pc.toNat + 1 ≤ s.cfg.top →
      ∃ b0 b1, s.byteAt s.pc.toNat = some b0 ∧ s.byteAt (s.pc.toNat + 1) = some b1 ∧
        s.fetchParcel s.pc = .ok (BitVec.ofNat 16 (parcelNat b0 b1)))

/-- The page check and the 2-byte instruction. A 4-byte instruction whose first parcel stands at offset 4094 of its
page, counted from BASE, faults with `IllegalInstruction` carrying that parcel, whatever the next page holds
(40_fetch_engine.md R137). A 2-byte one, at every even pc whose two bytes are in range, the last parcel of the range
included, is fetched with length 2 from those two bytes alone and dispatched, and halts by the verdict of
CLASSIFY_OTHER (40_fetch_engine.md R136, R139, R141; 30_encoding.md R109). Rests on the spec's own decisions D3, D4,
D7, D8, D27 and D32. -/
def Obligations.PageCheck : Prop :=
  ∀ (s : State) (b0 b1 : Byte), s.phase = .running → s.pc.toNat % 2 = 0 →
    s.byteAt s.pc.toNat = some b0 → s.byteAt (s.pc.toNat + 1) = some b1 →
    (b0.toNat % 4 = 3 → (s.pc.toNat - s.cfg.base) % 4096 = 4094 → ∃ t, step s = .next t ∧
      HaltedOn (.fault (.illegalInstruction (BitVec.ofNat 32 (parcelNat b0 b1)) s.pc)) [] s t) ∧
    (b0.toNat % 4 ≠ 3 → ∀ d : Fetched, d = { len := .two, bits := BitVec.ofNat 32 (parcelNat b0 b1) } →
      s.fetch = .ok d ∧ step s = dispatch s d ∧
      (s.cfg.classify.verdict .two d.bits = .illegal → ∃ t, step s = .next t ∧
        HaltedOn (.fault (.illegalInstruction d.bits s.pc)) [] s t) ∧
      (s.cfg.classify.verdict .two d.bits = .unimplemented → ∃ t, step s = .next t ∧
        HaltedOn (.unimplemented d.bits s.pc) (traceEvents s d) s t))

/-- The second parcel: read at `pc + 2` for a 4-byte instruction that passes the page check, composed into the upper
16 bits; out of range it faults with `LoadAddressFault(pc + 2)` (40_fetch_engine.md R138, 30_encoding.md R91). Rests
on the spec's own decisions D2, D3 and D5. -/
def Obligations.FetchSecondParcel : Prop :=
  ∀ (s : State) (b0 b1 : Byte), s.Inv → s.phase = .running → s.pc.toNat % 2 = 0 →
    s.byteAt s.pc.toNat = some b0 → s.byteAt (s.pc.toNat + 1) = some b1 → b0.toNat % 4 = 3 →
    (s.pc.toNat - s.cfg.base) % 4096 ≠ 4094 →
    (s.cfg.top < s.pc.toNat + 3 → ∃ t, step s = .next t ∧
      HaltedOn (.fault (.loadAddressFault (BitVec.ofNat 64 ((s.pc.toNat + 2) % s.modulus)))) [] s t) ∧
    (s.pc.toNat + 3 ≤ s.cfg.top → ∃ b2 b3, s.byteAt (s.pc.toNat + 2) = some b2 ∧
      s.byteAt (s.pc.toNat + 3) = some b3 ∧
      step s = dispatch s { len := .four, bits := BitVec.ofNat 32 (parcelNat b0 b1 + 65536 * parcelNat b2 b3) })

/-- The illegal marker halts the engine with `IllegalInstruction(raw_bits, pc)` and no trace event
(40_fetch_engine.md R139). Rests on the spec's own decision D32. -/
def Obligations.IllegalHalts : Prop :=
  ∀ (s : State) (d : Fetched), s.phase = .running → s.fetch = .ok d → decode s.cfg d.len d.bits = .illegal →
    ∃ t, step s = .next t ∧ HaltedOn (.fault (.illegalInstruction d.bits s.pc)) [] s t

/-- A valid operation outside the subset halts the engine with `Unimplemented(bits, pc)`, after its trace event, and
changes no register, no byte and not the pc (40_fetch_engine.md R141, R145). Rests on the spec's own decision D27. -/
def Obligations.UnimplementedHalts : Prop :=
  ∀ (s : State) (d : Fetched), s.phase = .running → s.fetch = .ok d → decode s.cfg d.len d.bits = .unimplemented →
    ∃ t, step s = .next t ∧ HaltedOn (.unimplemented d.bits s.pc) (traceEvents s d) s t

/-- With the debug flag set, the tick of every instruction that is not illegal first emits its trace event, one and no
more; with it clear, none (40_fetch_engine.md R140). -/
def Obligations.TraceEvent : Prop :=
  ∀ (s : State) (d : Fetched), s.phase = .running → s.fetch = .ok d → decode s.cfg d.len d.bits ≠ .illegal →
    ∃ t evs, step s = .next t ∧
      t.log = s.log ++ (if s.debug then [.instrTrace s.pc d.len d.bits] else []) ++ evs ∧
      ∀ e ∈ evs, ∀ p l b, e ≠ .instrTrace p l b

/-! ### Integer arithmetic -/

/-- ADD: encoding, result modulo 2^XLEN, pc, and frame (41_integer.md R160). Rests on the spec's own decisions D6 and
D37. -/
def Obligations.AddRule : Prop :=
  (∀ (c : Config) (w : BitVec 32), w &&& 0xFE00707F#32 = 0x00000033#32 →
    decode c .four w = .op (.add (rdOf w) (rs1Of w) (rs2Of w))) ∧
  ∀ (s : State) (rd rs1 rs2 : Reg), ∃ t, exec (.add rd rs1 rs2) s = .next t ∧
    (rd ≠ 0 → (t.x rd).toNat = ((s.x rs1).toNat + (s.x rs2).toNat) % s.modulus) ∧ (rd = 0 → SameRegs s t) ∧
    Advanced s t ∧ OnlyRegAndPc rd s t

/-- SUB: encoding, result modulo 2^XLEN, pc, and frame (41_integer.md R161). Rests on the spec's own decisions D6 and
D37. -/
def Obligations.SubRule : Prop :=
  (∀ (c : Config) (w : BitVec 32), w &&& 0xFE00707F#32 = 0x40000033#32 →
    decode c .four w = .op (.sub (rdOf w) (rs1Of w) (rs2Of w))) ∧
  ∀ (s : State) (rd rs1 rs2 : Reg), ∃ t, exec (.sub rd rs1 rs2) s = .next t ∧
    (rd ≠ 0 → ((t.x rd).toNat : Int) = (((s.x rs1).toNat : Int) - ((s.x rs2).toNat : Int)) % (s.modulus : Int)) ∧
    (rd = 0 → SameRegs s t) ∧ Advanced s t ∧ OnlyRegAndPc rd s t

/-- SLLI: encoding at each width, result modulo 2^XLEN, pc, and frame (41_integer.md R162). Rests on the spec's own
decisions D6, D14 and D37. -/
def Obligations.SlliRule : Prop :=
  (∀ (c : Config) (w : BitVec 32),
    (c.xlen = .rv64 → w &&& 0xFC00707F#32 = 0x00001013#32 →
      decode c .four w = .op (.slli (rdOf w) (rs1Of w) (shamtOf w))) ∧
    (c.xlen = .rv32 → w &&& 0xFE00707F#32 = 0x00001013#32 →
      decode c .four w = .op (.slli (rdOf w) (rs1Of w) (shamtOf w)) ∧ (shamtOf w).toNat = (w.extractLsb' 20 5).toNat) ∧
    (c.xlen = .rv32 → w &&& 0xFC00707F#32 = 0x00001013#32 → w.getLsbD 25 = true → decode c .four w = .illegal)) ∧
  ∀ (s : State) (rd rs1 : Reg) (shamt : BitVec 6), ∃ t, exec (.slli rd rs1 shamt) s = .next t ∧
    (rd ≠ 0 → (t.x rd).toNat = ((s.x rs1).toNat * 2 ^ shamt.toNat) % s.modulus) ∧ (rd = 0 → SameRegs s t) ∧
    Advanced s t ∧ OnlyRegAndPc rd s t

/-- ADDI: encoding, result modulo 2^XLEN, pc, and frame (41_integer.md R163). Rests on the spec's own decisions D6,
D9 and D37. -/
def Obligations.AddiRule : Prop :=
  (∀ (c : Config) (w : BitVec 32), w &&& 0x0000707F#32 = 0x00000013#32 →
    decode c .four w = .op (.addi (rdOf w) (rs1Of w) (w.extractLsb' 20 12))) ∧
  ∀ (s : State) (rd rs1 : Reg) (imm : BitVec 12), ∃ t, exec (.addi rd rs1 imm) s = .next t ∧
    (rd ≠ 0 → ((t.x rd).toNat : Int) = (((s.x rs1).toNat : Int) + imm.toInt) % (s.modulus : Int)) ∧
    (rd = 0 → SameRegs s t) ∧ Advanced s t ∧ OnlyRegAndPc rd s t

/-- AUIPC: encoding, result modulo 2^XLEN, pc, and frame; the immediate is the 32-bit value with its low twelve bits
0, sign-extended (41_integer.md R164). Rests on the spec's own decisions D6 and D9. -/
def Obligations.AuipcRule : Prop :=
  (∀ (c : Config) (w : BitVec 32), w &&& 0x0000007F#32 = 0x00000017#32 →
    decode c .four w = .op (.auipc (rdOf w) (w.extractLsb' 12 20))) ∧
  ∀ (s : State) (rd : Reg) (imm : BitVec 20), ∃ t, exec (.auipc rd imm) s = .next t ∧
    (rd ≠ 0 → ((t.x rd).toNat : Int) = ((s.pc.toNat : Int) + imm.toInt * 4096) % (s.modulus : Int)) ∧
    (rd = 0 → SameRegs s t) ∧ Advanced s t ∧ OnlyRegAndPc rd s t

/-! ### Loads -/

/-- LB: encoding, effective address, zero-extended byte, pc and frame; out of range it halts with
`LoadAddressFault(ea)`, also for `rd = x0` (42_loads.md R180, R182). Rests on the spec's own decisions D6, D9 and
D10. -/
def Obligations.LbRule : Prop :=
  (∀ (c : Config) (w : BitVec 32), w &&& 0x0000707F#32 = 0x00000003#32 →
    decode c .four w = .op (.lb (rdOf w) (rs1Of w) (w.extractLsb' 20 12))) ∧
  ∀ (s : State) (rd rs1 : Reg) (imm : BitVec 12) (ea : Nat),
    (ea : Int) = (((s.x rs1).toNat : Int) + imm.toInt) % (s.modulus : Int) →
    (s.cfg.base ≤ ea ∧ ea ≤ s.cfg.top → ∃ t b, exec (.lb rd rs1 imm) s = .next t ∧ s.byteAt ea = some b ∧
      (rd ≠ 0 → (t.x rd).toNat = b.toNat) ∧ (rd = 0 → SameRegs s t) ∧ Advanced s t ∧ OnlyRegAndPc rd s t) ∧
    (¬(s.cfg.base ≤ ea ∧ ea ≤ s.cfg.top) → ∃ t, exec (.lb rd rs1 imm) s = .next t ∧
      HaltedOn (.fault (.loadAddressFault (BitVec.ofNat 64 ea))) [] s t)

/-- LW: encoding, effective address, the XLEN/8 bytes little-endian, pc and frame; misaligned it halts with
`UnalignedAccess(ea)`, otherwise out of range with `LoadAddressFault(ea)` (42_loads.md R181, R182). Rests on the
spec's own decisions D2, D6, D9, D10 and D11. -/
def Obligations.LwRule : Prop :=
  (∀ (c : Config) (w : BitVec 32), w &&& 0x0000707F#32 = 0x00002003#32 →
    decode c .four w = .op (.lw (rdOf w) (rs1Of w) (w.extractLsb' 20 12))) ∧
  ∀ (s : State) (rd rs1 : Reg) (imm : BitVec 12) (ea : Nat),
    (ea : Int) = (((s.x rs1).toNat : Int) + imm.toInt) % (s.modulus : Int) →
    (ea % (s.cfg.xlen.bits / 8) = 0 → s.cfg.base ≤ ea → ea + s.cfg.xlen.bits / 8 - 1 ≤ s.cfg.top →
      ∃ t, exec (.lw rd rs1 imm) s = .next t ∧
      (rd ≠ 0 → fits s.cfg.xlen (t.x rd) ∧
        ∀ k, k < s.cfg.xlen.bits / 8 → s.byteAt (ea + k) = some ((t.x rd).extractLsb' (8 * k) 8)) ∧
      (rd = 0 → SameRegs s t) ∧ Advanced s t ∧ OnlyRegAndPc rd s t) ∧
    (ea % (s.cfg.xlen.bits / 8) ≠ 0 → ∃ t, exec (.lw rd rs1 imm) s = .next t ∧
      HaltedOn (.fault (.unalignedAccess (BitVec.ofNat 64 ea))) [] s t) ∧
    (ea % (s.cfg.xlen.bits / 8) = 0 → ea < s.cfg.base ∨ s.cfg.top < ea + s.cfg.xlen.bits / 8 - 1 →
      ∃ t, exec (.lw rd rs1 imm) s = .next t ∧ HaltedOn (.fault (.loadAddressFault (BitVec.ofNat 64 ea))) [] s t)

/-! ### Control transfer -/

/-- JAL: encoding, link `pc + 4`, target, and frame (43_control.md R190). Rests on the spec's own decisions D5, D6
and D9. -/
def Obligations.JalRule : Prop :=
  (∀ (c : Config) (w : BitVec 32), w &&& 0x0000007F#32 = 0x0000006F#32 →
    decode c .four w = .op (.jal (rdOf w)
      (w.extractLsb' 31 1 ++ w.extractLsb' 12 8 ++ w.extractLsb' 20 1 ++ w.extractLsb' 21 10 ++ 0#1))) ∧
  ∀ (s : State) (rd : Reg) (imm : BitVec 21), ∃ t, exec (.jal rd imm) s = .next t ∧
    (rd ≠ 0 → (t.x rd).toNat = (s.pc.toNat + 4) % s.modulus) ∧ (rd = 0 → SameRegs s t) ∧
    (t.pc.toNat : Int) = ((s.pc.toNat : Int) + imm.toInt) % (s.modulus : Int) ∧ OnlyRegAndPc rd s t

/-- JALR: encoding, link `pc + 4`, target from the old `rs1` with bit 0 kept, and frame (43_control.md R191). Rests
on the spec's own decisions D5, D6, D9, D12 and D13. -/
def Obligations.JalrRule : Prop :=
  (∀ (c : Config) (w : BitVec 32), w &&& 0x0000707F#32 = 0x00000067#32 →
    decode c .four w = .op (.jalr (rdOf w) (rs1Of w) (w.extractLsb' 20 12))) ∧
  ∀ (s : State) (rd rs1 : Reg) (imm : BitVec 12), ∃ t, exec (.jalr rd rs1 imm) s = .next t ∧
    (rd ≠ 0 → (t.x rd).toNat = (s.pc.toNat + 4) % s.modulus) ∧ (rd = 0 → SameRegs s t) ∧
    (t.pc.toNat : Int) = (((s.x rs1).toNat : Int) + imm.toInt) % (s.modulus : Int) ∧ OnlyRegAndPc rd s t

/-- BNE: encoding, the taken and the not-taken pc, and frame: no register is written (43_control.md R192). Rests on
the spec's own decisions D5, D6 and D9. -/
def Obligations.BneRule : Prop :=
  (∀ (c : Config) (w : BitVec 32), w &&& 0x0000707F#32 = 0x00001063#32 →
    decode c .four w = .op (.bne (rs1Of w) (rs2Of w)
      (w.extractLsb' 31 1 ++ w.extractLsb' 7 1 ++ w.extractLsb' 25 6 ++ w.extractLsb' 8 4 ++ 0#1))) ∧
  ∀ (s : State) (rs1 rs2 : Reg) (imm : BitVec 13), ∃ t, exec (.bne rs1 rs2 imm) s = .next t ∧
    (s.x rs1 ≠ s.x rs2 → (t.pc.toNat : Int) = ((s.pc.toNat : Int) + imm.toInt) % (s.modulus : Int)) ∧
    (s.x rs1 = s.x rs2 → Advanced s t) ∧ OnlyPc s t

/-! ### The environment call -/

/-- ECALL `write`. With the buffer in range, and the end boundary `a1 + a2` too: the bytes are recorded with `a0`,
`a0` becomes 0, the pc advances, and nothing else changes. Otherwise the start check, then the end check, halts the
engine with `a0` and the pc kept, no `WriteOut` event, and the syscall trace in the log (44_system_syscall.md R211,
R212). Rests on the spec's own decisions D15, D20, D21 and D30. -/
def Obligations.EcallWrite : Prop :=
  ∀ (s : State) (trace : Event), (s.x 17).toNat = 64 →
    trace = .syscallTrace (s.x 17) #v[s.x 10, s.x 11, s.x 12, s.x 13, s.x 14, s.x 15, s.x 16] →
    (s.cfg.base ≤ (s.x 11).toNat → (s.x 11).toNat + (s.x 12).toNat ≤ s.cfg.top →
      ∃ t bytes, exec .ecall s = .next t ∧ bytes.length = (s.x 12).toNat ∧
        (∀ k, k < (s.x 12).toNat → s.byteAt ((s.x 11).toNat + k) = bytes[k]?) ∧
        t.x 10 = 0 ∧ SameRegsBut 10 s t ∧ SameFRegs s t ∧ SameMem s t ∧ SameControl s t ∧ Advanced s t ∧
        t.log = s.log ++ [trace, .writeOut (s.x 10) bytes]) ∧
    (¬(s.cfg.base ≤ (s.x 11).toNat ∧ (s.x 11).toNat ≤ s.cfg.top) →
      ∃ t, exec .ecall s = .next t ∧ HaltedOn (.fault (.loadAddressFault (s.x 11))) [trace] s t) ∧
    (s.cfg.base ≤ (s.x 11).toNat → (s.x 11).toNat ≤ s.cfg.top → s.cfg.top < (s.x 11).toNat + (s.x 12).toNat →
      ∃ t, exec .ecall s = .next t ∧
        HaltedOn (.fault (.loadAddressFault (BitVec.ofNat 64 (((s.x 11).toNat + (s.x 12).toNat) % s.modulus))))
          [trace] s t)

/-- ECALL `exit`: the engine halts with `Exit`, the pc still advances, no register and no byte changes, the
diagnostic carries `a0` and whether `a1` is 0, and the run's exit status is `a0` (44_system_syscall.md R213). Rests
on the spec's own decisions D20 and D22. -/
def Obligations.EcallExit : Prop :=
  ∀ s : State, (s.x 17).toNat = 93 → ∃ t, exec .ecall s = .next t ∧ t.running = false ∧ t.halt = .exit ∧
    t.cfg = s.cfg ∧ t.debug = s.debug ∧ SameRegs s t ∧ SameFRegs s t ∧ SameMem s t ∧ Advanced s t ∧
    t.log = s.log ++ [.syscallTrace (s.x 17) #v[s.x 10, s.x 11, s.x 12, s.x 13, s.x 14, s.x 15, s.x 16],
      .exitDiag (s.x 10) (decide ((s.x 11).toNat = 0))] ∧
    t.exitStatus = some (s.x 10)

/-- ECALL with any other number than 64 and 93: the syscall trace and the pc advance are its only effects
(44_system_syscall.md R214). That every number but these two, 94 included, is such a number rests on the spec's own
decision D20 (R204, R205). -/
def Obligations.EcallOther : Prop :=
  ∀ s : State, (s.x 17).toNat ≠ 64 → (s.x 17).toNat ≠ 93 → ∃ t, exec .ecall s = .next t ∧ SameRegs s t ∧
    SameFRegs s t ∧ SameMem s t ∧ SameControl s t ∧ Advanced s t ∧
    t.log = s.log ++ [.syscallTrace (s.x 17) #v[s.x 10, s.x 11, s.x 12, s.x 13, s.x 14, s.x 15, s.x 16]]

/-- Every ECALL emits its syscall trace first, whatever the number and whatever the debug flag, also when the syscall
then faults (44_system_syscall.md R203). -/
def Obligations.EcallTraces : Prop :=
  ∀ s : State, ∃ t evs, exec .ecall s = .next t ∧ t.log = s.log ++ [.syscallTrace (s.x 17)
    #v[s.x 10, s.x 11, s.x 12, s.x 13, s.x 14, s.x 15, s.x 16]] ++ evs ∧ t.debug = s.debug ∧
    ∀ e ∈ evs, ∀ num args, e ≠ .syscallTrace num args

/-- The ECALL word is exactly 0x00000073 (44_system_syscall.md R200, 30_encoding.md R100). Rests on the spec's own
decision D6. -/
def Obligations.EcallEncoding : Prop :=
  ∀ (c : Config) (w : BitVec 32), decode c .four w = .op .ecall ↔ w = 0x00000073#32

/-! ### The whole engine -/

/-- The reset state meets the invariant. Its parameters are the model's choice (notes/assumptions/3.md). -/
def Obligations.ResetInv : Prop := State.Inv State.reset

/-- Every step keeps the invariant: a legal range, a canonical buffer inside it, XLEN-bit values in every register, the
pc, the halt record and the log, and a halt record only where the engine has stopped. The steps of the idle and the
halted engine are the model's choice (notes/assumptions/6.md and 7.md). -/
def Obligations.StepInv : Prop := ∀ s t : State, s.Inv → step s = .next t → t.Inv

/-- Every step answers a next state: a tick always returns (40_fetch_engine.md R148). That a fault and an
unimplemented operation are next states too, in which the run has ended with its halt record, and no `Outcome.fault`
and no refusal, is the model's choice (notes/assumptions/5.md), and so are the steps of the idle and the halted
engine (notes/assumptions/6.md and 7.md). -/
def Obligations.StepAnswers : Prop := ∀ s : State, ∃ t, step s = .next t

/-- A tick is refused outside the running phase (40_fetch_engine.md R146). Rests on the spec's own decision D24. -/
def Obligations.TickOnlyRunning : Prop :=
  ∀ s : State, tick s = .refused .notRunning ↔ s.phase ≠ .running

/-- Faults are precise: a tick that faults has changed no register, no byte and not the pc; the log keeps its events,
and the halt is reported last (40_fetch_engine.md R144, R145). Which events the tick itself emitted before the fault
is said by TraceEvent and EcallTraces. That the fault is a next state with a halt record is the model's choice
(notes/assumptions/5.md). -/
def Obligations.FaultsArePrecise : Prop :=
  ∀ (s t : State) (f : Fault), s.Inv → s.phase = .running → step s = .next t → t.halt = .fault f →
    ∃ evs, HaltedOn (.fault f) evs s t

/-- The only faults a halt record ever receives are the load address fault, the unaligned access and the illegal
instruction (60_exceptions.md R231; 20_memory.md R63, R74). Rests on the spec's own decisions D3, D16 and D32. -/
def Obligations.DeliveredFaults : Prop :=
  ∀ (s t : State) (f : Fault), s.phase = .running → step s = .next t → t.halt = .fault f → s.halt ≠ .fault f →
    f.code = 1 ∨ f.code = 3 ∨ f.code = 5

/-- No step writes memory, the floating-point file, the debug flag or the construction parameters (10_state.md R27,
R31; 20_memory.md R50, R74). In the idle phase the host may write memory and the debug flag (40_fetch_engine.md R130;
10_state.md R31): that the step of the idle engine is the host's `run` and no such write, and that the step of the
halted engine answers the same state, are the model's choices (notes/assumptions/6.md and 7.md). -/
def Obligations.StepKeeps : Prop :=
  ∀ s t : State, step s = .next t → SameMem s t ∧ SameFRegs s t ∧ t.debug = s.debug ∧ t.cfg = s.cfg

/-- A general-purpose register changes only by a tick whose operation has it as its destination, and by ECALL only in
`write` (10_state.md R23, 44_system_syscall.md R210). Rests on the spec's own decision D20. -/
def Obligations.RegisterWriters : Prop :=
  ∀ (s t : State) (r : Reg), step s = .next t → t.x r ≠ s.x r →
    s.phase = .running ∧ ∃ d i, s.fetch = .ok d ∧ decode s.cfg d.len d.bits = .op i ∧ Instr.dest i = some r ∧ r ≠ 0 ∧
      (i = .ecall → (s.x 17).toNat = 64)

/-- The phases: idle goes to running and changes nothing but the running flag; running stays running or halts with a
record; halted stays as it is (40_fetch_engine.md R130, R131, R145). That every step of the idle engine is the host's
`run`, and that a step of the halted engine answers the same state where no tick happens (R146), are the model's
choices (notes/assumptions/6.md and 7.md). Rests on the spec's own decision D24. -/
def Obligations.PhaseTransitions : Prop :=
  ∀ s t : State, s.Inv → step s = .next t →
    (s.phase = .idle → t.phase = .running ∧ t = { s with running := true }) ∧
    (s.phase = .running → (t.phase = .running ∧ t.halt = .none) ∨ (t.phase = .halted ∧ t.halt ≠ .none)) ∧
    (s.phase = .halted → t = s)

/-- The halt record `Exit` comes only from an ECALL with `a7 = 93` (10_state.md R32, 44_system_syscall.md R213).
Rests on the spec's own decision D20. -/
def Obligations.ExitOnlyByEcall : Prop :=
  ∀ s t : State, s.Inv → s.phase = .running → step s = .next t →
    (t.halt = .exit ↔ (s.x 17).toNat = 93 ∧ ∃ d, s.fetch = .ok d ∧ decode s.cfg d.len d.bits = .op .ecall)

/-- The halt is permanent: however many steps follow, nothing changes (10_state.md R30, R32; 40_fetch_engine.md R146). That
a halted engine's step answers the same state is the model's choice (notes/assumptions/7.md). -/
def Obligations.HaltIsPermanent : Prop :=
  ∀ s : State, s.phase = .halted → ∀ n, Sys2Proof.core.run n s = .next s

/-- The diagnostic log is append-only (10_state.md R33). -/
def Obligations.LogAppendOnly : Prop := ∀ s t : State, step s = .next t → ∃ evs, t.log = s.log ++ evs

/-- A tick that completes advances the pc by the fetched length, modulo 2^XLEN, unless its operation is JAL, JALR or
BNE, ECALL included (40_fetch_engine.md R143). -/
def Obligations.GenericPostIncrement : Prop :=
  ∀ (s t : State) (d : Fetched) (i : Instr), s.Inv → s.phase = .running → s.fetch = .ok d →
    decode s.cfg d.len d.bits = .op i → step s = .next t → (∀ f, t.halt ≠ .fault f) →
    (∀ rd imm, i ≠ .jal rd imm) → (∀ rd rs1 imm, i ≠ .jalr rd rs1 imm) → (∀ rs1 rs2 imm, i ≠ .bne rs1 rs2 imm) →
    t.pc.toNat = (s.pc.toNat + d.len.bytes) % s.modulus

/-- Of the operations that execute, only JALR can leave an odd pc (43_control.md R194, R190, R192). Rests on the
spec's own decision D13. -/
def Obligations.OnlyJalrMakesPcOdd : Prop :=
  ∀ (s t : State) (d : Fetched) (i : Instr), s.phase = .running → s.fetch = .ok d →
    decode s.cfg d.len d.bits = .op i → step s = .next t → t.pc.toNat % 2 = 1 →
    ∃ rd rs1 imm, i = .jalr rd rs1 imm

/-- The guest cannot observe the debug flag (10_state.md R31; 60_exceptions.md R245), the diagnostic log (10_state.md
R43) or the floating-point file (10_state.md R27): two states that differ in nothing else step to two states that
differ in nothing else. The events the two steps emit may differ. The steps of the idle and the halted engine are the
model's choice (notes/assumptions/6.md and 7.md). -/
def Obligations.DiagnosticsUnobservable : Prop :=
  ∀ s s' : State, SameGuestView s s' → ∃ t t', step s = .next t ∧ step s' = .next t' ∧ SameGuestView t t'

/-- No register, no byte and not the pc depends on CLASSIFY_OTHER: two engines that differ in it alone step to the
same registers, pc, memory, flags and phase, and to the same log while they run (00_scope.md R13). The halt record,
but for whether it is `Exit`, and the events of the step that halts may differ: the report, and the trace event that
only an unimplemented verdict emits. That the idle and the halted engine answer a next state is the model's choice
(notes/assumptions/6.md and 7.md), and so is that every halt does (notes/assumptions/5.md). Rests on the spec's own
decision D7. -/
def Obligations.VerdictUnobservable : Prop :=
  ∀ (s : State) (c' : Classify), ∃ t t', step s = .next t ∧
    step (s.withClassify c') = .next t' ∧
    t'.gpr = t.gpr ∧ t'.fpr = t.fpr ∧ t'.pc = t.pc ∧ t'.buf = t.buf ∧ t'.running = t.running ∧ t'.debug = t.debug ∧
    t'.phase = t.phase ∧ (t'.halt = .exit ↔ t.halt = .exit) ∧ (t.running = true → t'.log = t.log)

/-- `jal x0, 0` loops for ever: however many steps the host allows, the engine is where it was and safe, and only its
log has grown, by one trace event a step with the debug flag set and by nothing with it clear (40_fetch_engine.md
R149, R140). Rests on the spec's own decision D6. -/
def Obligations.SelfLoopNeverEnds : Prop :=
  ∀ (s : State) (d : Fetched), s.Inv → s.phase = .running → d = { len := .four, bits := 0x0000006F#32 } →
    s.fetch = .ok d → ∀ n,
    Sys2Proof.core.run n s = .next { s with log := s.log ++ (List.replicate n (traceEvents s d)).flatten } ∧
      SafeFor n s

/-- What the pc-relative pseudo-instructions reach: `call` and `tail` land on `pc + offset`, `call` leaves the return
address in `ra`, and `lla` computes `pc + offset`, or changes no register for `rd = x0` (30_encoding.md R121; the
sums are those of 41_integer.md R163 and R164 and of 43_control.md R191). At `2^31 - 2^11` and above the split of
R121 rounds `hi` past the sign bit, so that they reach 2^32 less, which at XLEN = 64 is not `pc + offset`. The
expansions and the split are the model's entry notes/assumptions/14.md (PRESUMED: general knowledge, as R121 is
marked). Rests on the spec's own decisions D6, D9, D12 and D38. -/
def Obligations.PcRelativePseudos : Prop :=
  ∀ (s : State) (o : BitVec 32) (rd : Reg) (target : Int),
    target = ((s.pc.toNat : Int) + o.toInt - if 2 ^ 31 - 2 ^ 11 ≤ o.toInt then 2 ^ 32 else 0) % (s.modulus : Int) →
    (∃ t, execAll (Pseudo.call o).expand s = .next t ∧ (t.pc.toNat : Int) = target ∧
      (t.x 1).toNat = (s.pc.toNat + 8) % s.modulus ∧ SameRegsBut 1 s t) ∧
    (∃ t, execAll (Pseudo.tail o).expand s = .next t ∧ (t.pc.toNat : Int) = target ∧ SameRegsBut 6 s t) ∧
    (rd ≠ 0 → ∃ t, execAll (Pseudo.lla rd o).expand s = .next t ∧ ((t.x rd).toNat : Int) = target ∧
      SameRegsBut rd s t) ∧
    (rd = 0 → ∃ t, execAll (Pseudo.lla rd o).expand s = .next t ∧ SameRegs s t)

/-! ### The host's other entry points -/

/-- In the idle phase the host sets the pc (a PC0 wider than XLEN bits is cut), sets the debug flag, and calls `run`,
which sets the running flag; each changes nothing else. Outside it none of them is allowed, so `run` is never called
a second time (70_reset_and_hazards.md R265; 10_state.md R30). That what is not allowed is answered by a refusal, and
the cut of PC0, are the model's choices (notes/assumptions/12.md). Rests on the spec's own decisions D24 and D31. -/
def Obligations.HostEntryPoints : Prop :=
  ∀ (s : State) (pc0 : Word) (flag : Bool),
    (s.phase = .idle →
      (∃ t, hostSetPc pc0 s = .next t ∧ t.pc.toNat = pc0.toNat % s.modulus ∧ SameRegs s t ∧ SameFRegs s t ∧
        SameMem s t ∧ SameControl s t ∧ t.log = s.log) ∧
      (∃ t, hostSetDebug flag s = .next t ∧ t.debug = flag ∧ SameRegs s t ∧ SameFRegs s t ∧ SameMem s t ∧
        t.cfg = s.cfg ∧ t.pc = s.pc ∧ t.phase = .idle ∧ t.log = s.log) ∧
      (∃ t, hostRun s = .next t ∧ t.phase = .running ∧ t.halt = .none ∧ SameRegs s t ∧ SameFRegs s t ∧
        SameMem s t ∧ t.cfg = s.cfg ∧ t.pc = s.pc ∧ t.debug = s.debug ∧ t.log = s.log ∧
        hostRun t = .refused .notIdle)) ∧
    (s.phase ≠ .idle → hostSetPc pc0 s = .refused .notIdle ∧ hostSetDebug flag s = .refused .notIdle ∧
      hostRun s = .refused .notIdle)
end

