-- ==== Sys2Proof/Laws/Bits.lean ====
section
/-! SUPPORT. What cutting and extending to XLEN bits do, as arithmetic modulo 2^XLEN, and the byte order. -/

namespace Sys2Proof.Machine

@[simp] theorem trunc_rv64 (v : Word) : trunc .rv64 v = v := rfl

theorem Xlen.bits_le (x : Xlen) : x.bits ≤ 64 := by cases x <;> decide

/-- Cutting to XLEN bits is reduction modulo 2^XLEN. -/
theorem toNat_trunc (x : Xlen) (v : Word) : (trunc x v).toNat = v.toNat % 2 ^ x.bits := by
  cases x
  · simp only [trunc, Xlen.bits, BitVec.toNat_setWidth]; omega
  · exact (Nat.mod_eq_of_lt v.isLt).symm

theorem trunc_lt (x : Xlen) (v : Word) : (trunc x v).toNat < 2 ^ x.bits := by
  rw [toNat_trunc]; exact Nat.mod_lt _ (Nat.two_pow_pos _)

/-- A `bitsXLEN` value is unchanged by the cut. -/
theorem trunc_of_lt {x : Xlen} {v : Word} (h : v.toNat < 2 ^ x.bits) : trunc x v = v := by
  apply BitVec.eq_of_toNat_eq; rw [toNat_trunc, Nat.mod_eq_of_lt h]

@[simp] theorem trunc_trunc (x : Xlen) (v : Word) : trunc x (trunc x v) = trunc x v := trunc_of_lt (trunc_lt x v)

/-- Reduction modulo 2^64 before reduction modulo 2^XLEN changes nothing. -/
theorem mod_pow_mod (x : Xlen) (n : Nat) : n % 2 ^ 64 % 2 ^ x.bits = n % 2 ^ x.bits := by
  cases x <;> simp only [Xlen.bits] <;> omega

theorem emod_pow_emod (x : Xlen) (n : Int) :
    n % (2 ^ 64 : Nat) % ((2 ^ x.bits : Nat) : Int) = n % ((2 ^ x.bits : Nat) : Int) := by
  cases x <;> simp only [Xlen.bits] <;> omega

/-- Addition modulo 2^XLEN (41_integer.md R165). -/
theorem toNat_trunc_add (x : Xlen) (a b : Word) : (trunc x (a + b)).toNat = (a.toNat + b.toNat) % 2 ^ x.bits := by
  rw [toNat_trunc, BitVec.toNat_add, mod_pow_mod]

/-- Subtraction modulo 2^XLEN (41_integer.md R165). -/
theorem toNat_trunc_sub (x : Xlen) (a b : Word) :
    ((trunc x (a - b)).toNat : Int) = ((a.toNat : Int) - (b.toNat : Int)) % ((2 ^ x.bits : Nat) : Int) := by
  have ha := a.isLt
  have hb := b.isLt
  rw [toNat_trunc, BitVec.toNat_sub]
  cases x <;> simp only [Xlen.bits] <;> omega

/-- A left shift modulo 2^XLEN (41_integer.md R162, R165). -/
theorem toNat_trunc_shiftLeft (x : Xlen) (a : Word) (n : Nat) :
    (trunc x (a <<< n)).toNat = (a.toNat * 2 ^ n) % 2 ^ x.bits := by
  rw [toNat_trunc, BitVec.toNat_shiftLeft, mod_pow_mod, Nat.shiftLeft_eq]

/-- The value of a sign-extended field, modulo 2^64. -/
theorem toNat_signExtend {n : Nat} (h : n ≤ 64) (v : BitVec n) :
    ((v.signExtend 64).toNat : Int) = v.toInt % (2 ^ 64 : Nat) := by
  have e : (v.signExtend 64).toInt = v.toInt := by
    rw [BitVec.toInt_signExtend_of_le h]
  rw [← e, BitVec.toInt_eq_toNat_bmod, Int.bmod_emod]
  have := (v.signExtend 64).isLt
  omega

/-- Adding a sign-extended field modulo 2^XLEN (41_integer.md R163). -/
theorem toNat_trunc_add_sext (x : Xlen) (a : Word) {n : Nat} (h : n ≤ 64) (v : BitVec n) :
    ((trunc x (a + sext x v)).toNat : Int) = ((a.toNat : Int) + v.toInt) % ((2 ^ x.bits : Nat) : Int) := by
  have e := toNat_signExtend h v
  rw [toNat_trunc_add, sext, toNat_trunc]
  have hb := (v.signExtend 64).isLt
  cases x <;> simp only [Xlen.bits] at * <;> omega

/-- A field of at most 32 bits is not changed by a cut after its zero extension. -/
theorem zext_eq {x : Xlen} {n : Nat} (h : n ≤ x.bits) (v : BitVec n) : (zext x v).toNat = v.toNat := by
  have hv : v.toNat < 2 ^ x.bits := lt_of_lt_of_le v.isLt (Nat.pow_le_pow_right (by decide) h)
  have h64 : v.toNat < 2 ^ 64 := lt_of_lt_of_le hv (Nat.pow_le_pow_right (by decide) (Xlen.bits_le x))
  rw [zext, toNat_trunc, BitVec.toNat_setWidth, Nat.mod_eq_of_lt h64, Nat.mod_eq_of_lt hv]

/-- The bits of a natural-number address cut to XLEN (20_memory.md R60). -/
theorem truncNat_eq (x : Xlen) (a : Nat) : truncNat x a = BitVec.ofNat 64 (a % 2 ^ x.bits) := by
  apply BitVec.eq_of_toNat_eq
  rw [truncNat, toNat_trunc, BitVec.toNat_ofNat, BitVec.toNat_ofNat, mod_pow_mod]
  have : a % 2 ^ x.bits < 2 ^ 64 :=
    lt_of_lt_of_le (Nat.mod_lt _ (Nat.two_pow_pos _)) (Nat.pow_le_pow_right (by decide) (Xlen.bits_le x))
  rw [Nat.mod_eq_of_lt this]

theorem leNat_lt (l : List Byte) : leNat l < 2 ^ (8 * l.length) := by
  induction l with
  | nil => simp [leNat]
  | cons b l ih =>
    have hb := b.isLt
    simp only [leNat, List.length_cons, Nat.mul_add, Nat.pow_add]
    norm_num
    omega

/-- Byte `k` of a little-endian value is the byte at index `k` (20_memory.md R59). -/
theorem leNat_byte (l : List Byte) (k : Nat) (h : k < l.length) :
    (leNat l >>> (8 * k)) % 256 = (l[k]'h).toNat := by
  induction l generalizing k with
  | nil => simp at h
  | cons b l ih =>
    have hb : b.toNat < 256 := b.isLt
    cases k with
    | zero => simp only [leNat, Nat.mul_zero, Nat.shiftRight_zero, List.getElem_cons_zero]; omega
    | succ k =>
      have e : leNat (b :: l) >>> (8 * (k + 1)) = leNat l >>> (8 * k) := by
        rw [show 8 * (k + 1) = 8 + 8 * k by ring, Nat.shiftRight_add]
        congr 1
        rw [Nat.shiftRight_eq_div_pow]
        simp only [leNat]
        omega
      rw [e]
      simpa using ih k (by simpa using h)

/-- The bytes of a value, read back little-endian, are the value (20_memory.md R59). -/
theorem leNat_leBytes (n : Nat) {m : Nat} (v : BitVec m) : leNat (leBytes n v) = v.toNat % 2 ^ (8 * n) := by
  have key : ∀ n j, leNat ((List.range n).map fun k => v.extractLsb' (8 * (k + j)) 8) =
      (v.toNat >>> (8 * j)) % 2 ^ (8 * n) := by
    intro n
    induction n with
    | zero => intro j; simp [leNat, Nat.mod_one]
    | succ n ih =>
      intro j
      rw [List.range_succ_eq_map, List.map_cons, List.map_map]
      have e : (List.range n).map ((fun k => v.extractLsb' (8 * (k + j)) 8) ∘ Nat.succ) =
          (List.range n).map fun k => v.extractLsb' (8 * (k + (j + 1))) 8 := by
        apply List.map_congr_left
        intro k _
        simp only [Function.comp, Nat.succ_eq_add_one]
        congr 2
        ring
      rw [e, leNat, ih]
      simp only [BitVec.extractLsb'_toNat, Nat.zero_add]
      rw [show 8 * (j + 1) = 8 * j + 8 by ring, Nat.shiftRight_add, show 8 * (n + 1) = 8 + 8 * n by ring,
        Nat.pow_add, Nat.mod_mul]
      simp only [Nat.shiftRight_eq_div_pow]
  simpa [leBytes] using key n 0

@[simp] theorem length_leBytes (n : Nat) {m : Nat} (v : BitVec m) : (leBytes n v).length = n := by simp [leBytes]

end Sys2Proof.Machine
end

