-- ==== Sys2Proof/Laws/Config.lean ====
section
/-! SUPPORT. The table form of CLASSIFY_OTHER loses nothing. -/

namespace Sys2Proof.Laws

/-- Every function of the type of CLASSIFY_OTHER is the verdict of some table (00_scope.md R13). -/
theorem classify_covers (f : ILen → BitVec 32 → Verdict) :
    ∃ c : Classify, ∀ len bits, c.verdict len bits = f len bits := by
  classical
  let all : List (BitVec 32) := (List.range (2 ^ 32)).map (BitVec.ofNat 32)
  have hall : ∀ b : BitVec 32, b ∈ all := fun b =>
    List.mem_map.2 ⟨b.toNat, List.mem_range.2 b.isLt, by simp⟩
  let bad : List (ILen × BitVec 32) :=
    (all.map (fun b => (ILen.two, b)) ++ all.map (fun b => (ILen.four, b))).filter
      fun p => decide (f p.1 p.2 = .illegal)
  refine ⟨{ dflt := .unimplemented, exceptions := bad }, fun len bits => ?_⟩
  have hmem : (len, bits) ∈ bad ↔ f len bits = .illegal := by
    have hb := hall bits
    cases len <;> simp [bad, hb]
  simp only [Classify.verdict, hmem, Verdict.other]
  cases h : f len bits <;> simp

end Sys2Proof.Laws
end

