-- ==== Sys2Proof/Laws/Decode.lean ====
section
/-! SUPPORT. The rows of the opcode map do not overlap, and what the decoder can answer. -/

namespace Sys2Proof.Laws

/-- Two rows whose common fixed bits differ select no word together. -/
theorem selects_exclusive {r q : Row} (h : (r.bits &&& q.mask) ≠ (q.bits &&& r.mask)) (w : BitVec 32)
    (hr : r.selects w = true) : q.selects w = false := by
  by_contra hq
  simp only [Row.selects, beq_iff_eq, Bool.not_eq_false] at hr hq
  apply h
  rw [← hr, ← hq]
  ext i
  simp only [BitVec.getElem_and]
  cases w[i] <;> cases r.mask[i] <;> cases q.mask[i] <;> rfl

/-- "The rows do not overlap: no word selects two rows" (30_encoding.md R100). -/
theorem rows_disjoint (x : Xlen) : (rows x).Pairwise fun r q => (r.bits &&& q.mask) ≠ (q.bits &&& r.mask) := by
  cases x <;> decide

theorem two_low_bits (lo : BitVec 16) : lenOf lo = .four ↔ lo.toNat % 4 = 3 := by
  have e : lo.extractLsb' 0 2 = 3#2 ↔ lo.toNat % 4 = 3 := by
    rw [← BitVec.toNat_inj, BitVec.extractLsb'_toNat]; simp
  unfold lenOf
  split <;> simp_all

/-- Every operation is four bytes long (30_encoding.md R109). -/
theorem decode_two_not_op (c : Config) (bits : BitVec 32) (i : Instr) : decode c .two bits ≠ .op i := by
  simp only [decode, decodeOther]; split <;> simp

/-- An operation is decoded exactly where a row selects the word. -/
theorem decode_op_iff (c : Config) (len : ILen) (bits : BitVec 32) (i : Instr) :
    decode c len bits = .op i ↔ len = .four ∧ decodeRow c.xlen bits = some i := by
  cases len with
  | two => simp [decode_two_not_op]
  | four =>
    simp only [decode, decodeOther, true_and]
    cases decodeRow c.xlen bits with
    | some j => simp
    | none =>
      simp only [reduceCtorEq, iff_false]
      split
      · simp
      · split <;> simp

/-- The decoder reads nothing of the configuration but XLEN when it answers an operation. -/
theorem decode_op_congr {c c' : Config} (h : c'.xlen = c.xlen) (len : ILen) (bits : BitVec 32) (i : Instr) :
    decode c' len bits = .op i ↔ decode c len bits = .op i := by
  rw [decode_op_iff, decode_op_iff, h]

theorem selects_iff (r : Row) (w : BitVec 32) : r.selects w = true ↔ w &&& r.mask = r.bits := by simp [Row.selects]

/-! Each row decodes the words it selects (30_encoding.md R100, R102). -/

theorem decodeRow_add {x : Xlen} {w : BitVec 32} (h : rowAdd.selects w = true) :
    decodeRow x w = some (.add (rdOf w) (rs1Of w) (rs2Of w)) := by
  simp [decodeRow, h]

theorem decodeRow_sub {x : Xlen} {w : BitVec 32} (h : rowSub.selects w = true) :
    decodeRow x w = some (.sub (rdOf w) (rs1Of w) (rs2Of w)) := by
  simp [decodeRow, h, selects_exclusive (q := rowAdd) (by decide) w h]

theorem decodeRow_slli {x : Xlen} {w : BitVec 32} (h : (rowSlli x).selects w = true) :
    decodeRow x w = some (.slli (rdOf w) (rs1Of w) (shamtOf w)) := by
  simp [decodeRow, h, selects_exclusive (q := rowAdd) (by cases x <;> decide) w h,
    selects_exclusive (q := rowSub) (by cases x <;> decide) w h]

theorem decodeRow_addi {x : Xlen} {w : BitVec 32} (h : rowAddi.selects w = true) :
    decodeRow x w = some (.addi (rdOf w) (rs1Of w) (immIOf w)) := by
  simp [decodeRow, h, selects_exclusive (q := rowAdd) (by decide) w h, selects_exclusive (q := rowSub) (by decide) w h,
    selects_exclusive (q := (rowSlli x)) (by cases x <;> decide) w h]

theorem decodeRow_auipc {x : Xlen} {w : BitVec 32} (h : rowAuipc.selects w = true) :
    decodeRow x w = some (.auipc (rdOf w) (immUOf w)) := by
  simp [decodeRow, h, selects_exclusive (q := rowAdd) (by decide) w h, selects_exclusive (q := rowSub) (by decide) w h,
    selects_exclusive (q := (rowSlli x)) (by cases x <;> decide) w h, selects_exclusive (q := rowAddi) (by decide) w h]

theorem decodeRow_lb {x : Xlen} {w : BitVec 32} (h : rowLb.selects w = true) :
    decodeRow x w = some (.lb (rdOf w) (rs1Of w) (immIOf w)) := by
  simp [decodeRow, h, selects_exclusive (q := rowAdd) (by decide) w h, selects_exclusive (q := rowSub) (by decide) w h,
    selects_exclusive (q := (rowSlli x)) (by cases x <;> decide) w h, selects_exclusive (q := rowAddi) (by decide) w h,
    selects_exclusive (q := rowAuipc) (by decide) w h]

theorem decodeRow_lw {x : Xlen} {w : BitVec 32} (h : rowLw.selects w = true) :
    decodeRow x w = some (.lw (rdOf w) (rs1Of w) (immIOf w)) := by
  simp [decodeRow, h, selects_exclusive (q := rowAdd) (by decide) w h, selects_exclusive (q := rowSub) (by decide) w h,
    selects_exclusive (q := (rowSlli x)) (by cases x <;> decide) w h, selects_exclusive (q := rowAddi) (by decide) w h,
    selects_exclusive (q := rowAuipc) (by decide) w h, selects_exclusive (q := rowLb) (by decide) w h]

theorem decodeRow_jal {x : Xlen} {w : BitVec 32} (h : rowJal.selects w = true) :
    decodeRow x w = some (.jal (rdOf w) (immJOf w)) := by
  simp [decodeRow, h, selects_exclusive (q := rowAdd) (by decide) w h, selects_exclusive (q := rowSub) (by decide) w h,
    selects_exclusive (q := (rowSlli x)) (by cases x <;> decide) w h, selects_exclusive (q := rowAddi) (by decide) w h,
    selects_exclusive (q := rowAuipc) (by decide) w h, selects_exclusive (q := rowLb) (by decide) w h,
    selects_exclusive (q := rowLw) (by decide) w h]

theorem decodeRow_jalr {x : Xlen} {w : BitVec 32} (h : rowJalr.selects w = true) :
    decodeRow x w = some (.jalr (rdOf w) (rs1Of w) (immIOf w)) := by
  simp [decodeRow, h, selects_exclusive (q := rowAdd) (by decide) w h, selects_exclusive (q := rowSub) (by decide) w h,
    selects_exclusive (q := (rowSlli x)) (by cases x <;> decide) w h, selects_exclusive (q := rowAddi) (by decide) w h,
    selects_exclusive (q := rowAuipc) (by decide) w h, selects_exclusive (q := rowLb) (by decide) w h,
    selects_exclusive (q := rowLw) (by decide) w h, selects_exclusive (q := rowJal) (by decide) w h]

theorem decodeRow_bne {x : Xlen} {w : BitVec 32} (h : rowBne.selects w = true) :
    decodeRow x w = some (.bne (rs1Of w) (rs2Of w) (immBOf w)) := by
  simp [decodeRow, h, selects_exclusive (q := rowAdd) (by decide) w h, selects_exclusive (q := rowSub) (by decide) w h,
    selects_exclusive (q := (rowSlli x)) (by cases x <;> decide) w h, selects_exclusive (q := rowAddi) (by decide) w h,
    selects_exclusive (q := rowAuipc) (by decide) w h, selects_exclusive (q := rowLb) (by decide) w h,
    selects_exclusive (q := rowLw) (by decide) w h, selects_exclusive (q := rowJal) (by decide) w h,
    selects_exclusive (q := rowJalr) (by decide) w h]

theorem decodeRow_ecall (x : Xlen) : decodeRow x 0x00000073#32 = some .ecall := by cases x <;> decide

/-- What a selected row says of the word and of the operation. -/
theorem decodeRow_cases {x : Xlen} {w : BitVec 32} {i : Instr} (h : decodeRow x w = some i) :
    (rowAdd.selects w = true ∧ i = .add (rdOf w) (rs1Of w) (rs2Of w)) ∨
    (rowSub.selects w = true ∧ i = .sub (rdOf w) (rs1Of w) (rs2Of w)) ∨
    ((rowSlli x).selects w = true ∧ i = .slli (rdOf w) (rs1Of w) (shamtOf w)) ∨
    (rowAddi.selects w = true ∧ i = .addi (rdOf w) (rs1Of w) (immIOf w)) ∨
    (rowAuipc.selects w = true ∧ i = .auipc (rdOf w) (immUOf w)) ∨
    (rowLb.selects w = true ∧ i = .lb (rdOf w) (rs1Of w) (immIOf w)) ∨
    (rowLw.selects w = true ∧ i = .lw (rdOf w) (rs1Of w) (immIOf w)) ∨
    (rowJal.selects w = true ∧ i = .jal (rdOf w) (immJOf w)) ∨
    (rowJalr.selects w = true ∧ i = .jalr (rdOf w) (rs1Of w) (immIOf w)) ∨
    (rowBne.selects w = true ∧ i = .bne (rs1Of w) (rs2Of w) (immBOf w)) ∨
    (rowEcall.selects w = true ∧ i = .ecall) := by
  unfold decodeRow at h
  repeat' split at h
  all_goals simp_all


/-- A word that some row selects decodes to that row's operation. -/
theorem decode_of_decodeRow (c : Config) {w : BitVec 32} {i : Instr} (h : decodeRow c.xlen w = some i) :
    decode c .four w = .op i := (decode_op_iff _ _ _ _).2 ⟨rfl, h⟩

end Sys2Proof.Laws
end

