-- ==== Sys2Proof/Laws/Encode.lean ====
section
/-! SUPPORT. The fields of a word built in each format of 30_encoding.md R94, and a word rebuilt from its fields. -/

namespace Sys2Proof.Laws

section
variable (f7 : BitVec 7) (rs2 rs1 : Reg) (f3 : BitVec 3) (rd : Reg) (op : BitVec 7)

/-- Clearing the register fields of an R-format word. -/
theorem encR_mask : encR f7 rs2 rs1 f3 rd op &&& 0xFE00707F#32 = encR f7 0 0 f3 0 op := by
  apply BitVec.eq_of_getLsbD_eq
  intro i hi
  simp only [encR, BitVec.getLsbD_and, BitVec.getLsbD_append]
  interval_cases i <;> simp

theorem encR_rd : rdOf (encR f7 rs2 rs1 f3 rd op) = rd := by
  suffices h : (encR f7 rs2 rs1 f3 rd op).extractLsb' 7 5 = BitVec.ofFin (w := 5) rd from congrArg BitVec.toFin h
  apply BitVec.eq_of_getLsbD_eq
  intro i hi
  simp only [encR, BitVec.getLsbD_extractLsb', BitVec.getLsbD_append]
  interval_cases i <;> simp

theorem encR_rs1 : rs1Of (encR f7 rs2 rs1 f3 rd op) = rs1 := by
  suffices h : (encR f7 rs2 rs1 f3 rd op).extractLsb' 15 5 = BitVec.ofFin (w := 5) rs1 from congrArg BitVec.toFin h
  apply BitVec.eq_of_getLsbD_eq
  intro i hi
  simp only [encR, BitVec.getLsbD_extractLsb', BitVec.getLsbD_append]
  interval_cases i <;> simp

theorem encR_rs2 : rs2Of (encR f7 rs2 rs1 f3 rd op) = rs2 := by
  suffices h : (encR f7 rs2 rs1 f3 rd op).extractLsb' 20 5 = BitVec.ofFin (w := 5) rs2 from congrArg BitVec.toFin h
  apply BitVec.eq_of_getLsbD_eq
  intro i hi
  simp only [encR, BitVec.getLsbD_extractLsb', BitVec.getLsbD_append]
  interval_cases i <;> simp

variable (imm : BitVec 12)

/-- Clearing the register and immediate fields of an I-format word. -/
theorem encI_mask : encI imm rs1 f3 rd op &&& 0x0000707F#32 = encI 0 0 f3 0 op := by
  apply BitVec.eq_of_getLsbD_eq
  intro i hi
  simp only [encI, BitVec.getLsbD_and, BitVec.getLsbD_append]
  interval_cases i <;> simp

/-- Clearing the register and shift-amount fields of an SLLI word, at XLEN = 64. -/
theorem encI_shift_mask (s : BitVec 6) :
    encI (0b000000#6 ++ s) rs1 f3 rd op &&& 0xFC00707F#32 = encI 0 0 f3 0 op := by
  apply BitVec.eq_of_getLsbD_eq
  intro i hi
  simp only [encI, BitVec.getLsbD_and, BitVec.getLsbD_append]
  interval_cases i <;> simp

/-- The same at XLEN = 32, where the shift amount is below 32. -/
theorem encI_shift_mask32 (s : BitVec 6) (h : s.getLsbD 5 = false) :
    encI (0b000000#6 ++ s) rs1 f3 rd op &&& 0xFE00707F#32 = encI 0 0 f3 0 op := by
  apply BitVec.eq_of_getLsbD_eq
  intro i hi
  simp only [encI, BitVec.getLsbD_and, BitVec.getLsbD_append]
  interval_cases i <;> simp_all

theorem encI_rd : rdOf (encI imm rs1 f3 rd op) = rd := by
  suffices h : (encI imm rs1 f3 rd op).extractLsb' 7 5 = BitVec.ofFin (w := 5) rd from congrArg BitVec.toFin h
  apply BitVec.eq_of_getLsbD_eq
  intro i hi
  simp only [encI, BitVec.getLsbD_extractLsb', BitVec.getLsbD_append]
  interval_cases i <;> simp

theorem encI_rs1 : rs1Of (encI imm rs1 f3 rd op) = rs1 := by
  suffices h : (encI imm rs1 f3 rd op).extractLsb' 15 5 = BitVec.ofFin (w := 5) rs1 from congrArg BitVec.toFin h
  apply BitVec.eq_of_getLsbD_eq
  intro i hi
  simp only [encI, BitVec.getLsbD_extractLsb', BitVec.getLsbD_append]
  interval_cases i <;> simp

theorem encI_imm : immIOf (encI imm rs1 f3 rd op) = imm := by
  apply BitVec.eq_of_getLsbD_eq
  intro i hi
  simp only [immIOf, encI, BitVec.getLsbD_extractLsb', BitVec.getLsbD_append]
  interval_cases i <;> simp

theorem encI_shamt (s : BitVec 6) : shamtOf (encI (0b000000#6 ++ s) rs1 f3 rd op) = s := by
  apply BitVec.eq_of_getLsbD_eq
  intro i hi
  simp only [shamtOf, encI, BitVec.getLsbD_extractLsb', BitVec.getLsbD_append]
  interval_cases i <;> simp

theorem encU_mask (immU : BitVec 20) : encU immU rd op &&& 0x0000007F#32 = encU 0 0 op := by
  apply BitVec.eq_of_getLsbD_eq
  intro i hi
  simp only [encU, BitVec.getLsbD_and, BitVec.getLsbD_append]
  interval_cases i <;> simp

theorem encU_rd (immU : BitVec 20) : rdOf (encU immU rd op) = rd := by
  suffices h : (encU immU rd op).extractLsb' 7 5 = BitVec.ofFin (w := 5) rd from congrArg BitVec.toFin h
  apply BitVec.eq_of_getLsbD_eq
  intro i hi
  simp only [encU, BitVec.getLsbD_extractLsb', BitVec.getLsbD_append]
  interval_cases i <;> simp

theorem encU_imm (immU : BitVec 20) : immUOf (encU immU rd op) = immU := by
  apply BitVec.eq_of_getLsbD_eq
  intro i hi
  simp only [immUOf, encU, BitVec.getLsbD_extractLsb', BitVec.getLsbD_append]
  interval_cases i <;> simp

theorem encJ_mask (immJ : BitVec 21) : encJ immJ rd op &&& 0x0000007F#32 = encJ 0 0 op := by
  apply BitVec.eq_of_getLsbD_eq
  intro i hi
  simp only [encJ, BitVec.getLsbD_and, BitVec.getLsbD_append]
  interval_cases i <;> simp

theorem encJ_rd (immJ : BitVec 21) : rdOf (encJ immJ rd op) = rd := by
  suffices h : (encJ immJ rd op).extractLsb' 7 5 = BitVec.ofFin (w := 5) rd from congrArg BitVec.toFin h
  apply BitVec.eq_of_getLsbD_eq
  intro i hi
  simp only [encJ, BitVec.getLsbD_extractLsb', BitVec.getLsbD_append]
  interval_cases i <;> simp

/-- An even jump offset comes back from its scattered bits (30_encoding.md R97). -/
theorem encJ_imm (immJ : BitVec 21) (h : immJ.getLsbD 0 = false) : immJOf (encJ immJ rd op) = immJ := by
  apply BitVec.eq_of_getLsbD_eq
  intro i hi
  simp only [immJOf, encJ, BitVec.getLsbD_extractLsb', BitVec.getLsbD_append]
  interval_cases i <;> simp_all

theorem encB_mask (immB : BitVec 13) : encB immB rs2 rs1 f3 op &&& 0x0000707F#32 = encB 0 0 0 f3 op := by
  apply BitVec.eq_of_getLsbD_eq
  intro i hi
  simp only [encB, BitVec.getLsbD_and, BitVec.getLsbD_append]
  interval_cases i <;> simp

theorem encB_rs1 (immB : BitVec 13) : rs1Of (encB immB rs2 rs1 f3 op) = rs1 := by
  suffices h : (encB immB rs2 rs1 f3 op).extractLsb' 15 5 = BitVec.ofFin (w := 5) rs1 from congrArg BitVec.toFin h
  apply BitVec.eq_of_getLsbD_eq
  intro i hi
  simp only [encB, BitVec.getLsbD_extractLsb', BitVec.getLsbD_append]
  interval_cases i <;> simp

theorem encB_rs2 (immB : BitVec 13) : rs2Of (encB immB rs2 rs1 f3 op) = rs2 := by
  suffices h : (encB immB rs2 rs1 f3 op).extractLsb' 20 5 = BitVec.ofFin (w := 5) rs2 from congrArg BitVec.toFin h
  apply BitVec.eq_of_getLsbD_eq
  intro i hi
  simp only [encB, BitVec.getLsbD_extractLsb', BitVec.getLsbD_append]
  interval_cases i <;> simp

/-- An even branch offset comes back from its scattered bits (30_encoding.md R98). -/
theorem encB_imm (immB : BitVec 13) (h : immB.getLsbD 0 = false) : immBOf (encB immB rs2 rs1 f3 op) = immB := by
  apply BitVec.eq_of_getLsbD_eq
  intro i hi
  simp only [immBOf, encB, BitVec.getLsbD_extractLsb', BitVec.getLsbD_append]
  interval_cases i <;> simp_all

end

/-! ### A word rebuilt from its fields -/

section
variable (w : BitVec 32)

theorem encR_fields :
    encR (w.extractLsb' 25 7) (rs2Of w) (rs1Of w) (w.extractLsb' 12 3) (rdOf w) (w.extractLsb' 0 7) = w := by
  apply BitVec.eq_of_getLsbD_eq
  intro i hi
  simp only [encR, rs2Of, rs1Of, rdOf, BitVec.getLsbD_append, BitVec.ofFin_toFin, BitVec.getLsbD_extractLsb']
  interval_cases i <;> simp

theorem encI_fields :
    encI (immIOf w) (rs1Of w) (w.extractLsb' 12 3) (rdOf w) (w.extractLsb' 0 7) = w := by
  apply BitVec.eq_of_getLsbD_eq
  intro i hi
  simp only [encI, immIOf, rs1Of, rdOf, BitVec.getLsbD_append, BitVec.ofFin_toFin, BitVec.getLsbD_extractLsb']
  interval_cases i <;> simp

theorem encI_shift_fields :
    encI (w.extractLsb' 26 6 ++ shamtOf w) (rs1Of w) (w.extractLsb' 12 3) (rdOf w) (w.extractLsb' 0 7) = w := by
  apply BitVec.eq_of_getLsbD_eq
  intro i hi
  simp only [encI, shamtOf, rs1Of, rdOf, BitVec.getLsbD_append, BitVec.ofFin_toFin, BitVec.getLsbD_extractLsb']
  interval_cases i <;> simp

theorem encU_fields : encU (immUOf w) (rdOf w) (w.extractLsb' 0 7) = w := by
  apply BitVec.eq_of_getLsbD_eq
  intro i hi
  simp only [encU, immUOf, rdOf, BitVec.getLsbD_append, BitVec.ofFin_toFin, BitVec.getLsbD_extractLsb']
  interval_cases i <;> simp

theorem encJ_fields : encJ (immJOf w) (rdOf w) (w.extractLsb' 0 7) = w := by
  apply BitVec.eq_of_getLsbD_eq
  intro i hi
  simp only [encJ, immJOf, rdOf, BitVec.getLsbD_append, BitVec.ofFin_toFin, BitVec.getLsbD_extractLsb']
  interval_cases i <;> simp

theorem encB_fields : encB (immBOf w) (rs2Of w) (rs1Of w) (w.extractLsb' 12 3) (w.extractLsb' 0 7) = w := by
  apply BitVec.eq_of_getLsbD_eq
  intro i hi
  simp only [encB, immBOf, rs2Of, rs1Of, BitVec.getLsbD_append, BitVec.ofFin_toFin, BitVec.getLsbD_extractLsb']
  interval_cases i <;> simp

/-- A field that a mask covers is fixed by the masked word. -/
theorem extract_of_mask {mask bits : BitVec 32} (h : w &&& mask = bits) (lo n : Nat)
    (hm : mask.extractLsb' lo n = BitVec.allOnes n) : w.extractLsb' lo n = bits.extractLsb' lo n := by
  subst h
  rw [BitVec.extractLsb'_and, hm, BitVec.and_allOnes]

end

end Sys2Proof.Laws
end

