-- ==== Sys2Proof/Laws/Memory.lean ====
section
/-! SUPPORT. The laws of the byte buffer: every operation keeps the canonical form, and reading after writing. -/

namespace Sys2Proof.Machine

@[simp] theorem Memory.read_nil (o : Nat) : Memory.read [] o = unlistedByte := rfl

theorem Memory.wf_nil : Memory.wf [] := by decide

theorem Memory.wf_cons {c : Host.Cell} {m : Memory} :
    Memory.wf (c :: m) ↔ (∀ d ∈ m, c.1 < d.1) ∧ c.2 ≠ unlistedByte ∧ Memory.wf m := by
  simp only [Memory.wf, List.pairwise_cons, List.mem_cons, forall_eq_or_imp]
  tauto

/-- An offset below every cell reads as the construction value. -/
theorem Memory.read_of_lt {m : Memory} {o : Nat} (h : ∀ d ∈ m, o < d.1) : m.read o = unlistedByte := by
  induction m with
  | nil => rfl
  | cons c m ih =>
    have hc := h c (by simp)
    rw [Memory.read, if_neg (by omega)]
    exact ih fun d hd => h d (by simp [hd])

/-- A cell after a write is an old one or the written one. -/
theorem Memory.mem_write {m : Memory} {o : Nat} {b : Byte} {d : Host.Cell} (h : d ∈ m.write o b) :
    d ∈ m ∨ d = (o, b) := by
  induction m with
  | nil => simp only [Memory.write] at h; split at h <;> simp_all
  | cons c m ih =>
    simp only [Memory.write] at h
    split at h
    · split at h <;> simp_all
      tauto
    · split at h
      · split at h <;> simp_all
        tauto
      · rcases List.mem_cons.1 h with h | h
        · simp [h]
        · rcases ih h with h | h <;> simp [h]

/-- A write keeps the canonical form. -/
theorem Memory.wf_write {m : Memory} (h : m.wf) (o : Nat) (b : Byte) : (m.write o b).wf := by
  induction m with
  | nil => simp only [Memory.write]; split <;> simp_all [Memory.wf]
  | cons c m ih =>
    obtain ⟨hlt, hne, hm⟩ := Memory.wf_cons.1 h
    simp only [Memory.write]
    split
    · rename_i hlo
      split
      · exact h
      · rename_i hb
        refine Memory.wf_cons.2 ⟨?_, hb, h⟩
        intro d hd
        rcases List.mem_cons.1 hd with hd | hd
        · simpa [hd] using hlo
        · exact lt_trans hlo (hlt d hd)
    · split
      · rename_i heq
        split
        · exact hm
        · rename_i hb
          exact Memory.wf_cons.2 ⟨fun d hd => heq ▸ hlt d hd, hb, hm⟩
      · refine Memory.wf_cons.2 ⟨?_, hne, ih hm⟩
        intro d hd
        rcases Memory.mem_write hd with hd | hd
        · exact hlt d hd
        · simp only [hd]; omega

/-- Reading after writing one byte. -/
theorem Memory.read_write {m : Memory} (h : m.wf) (o : Nat) (b : Byte) (j : Nat) :
    (m.write o b).read j = if j = o then b else m.read j := by
  induction m with
  | nil =>
    simp only [Memory.write]
    split <;> simp_all [Memory.read, eq_comm]
  | cons c m ih =>
    obtain ⟨hlt, hne, hm⟩ := Memory.wf_cons.1 h
    have hread : ∀ k, k ≤ c.1 → Memory.read m k = unlistedByte := fun k hk =>
      Memory.read_of_lt fun d hd => lt_of_le_of_lt hk (hlt d hd)
    simp only [Memory.write]
    split
    · rename_i hlo
      split
      · rename_i hb
        by_cases hj : j = o
        · subst hj
          rw [if_pos rfl, Memory.read, if_neg (by omega), hread j (by omega), hb]
        · rw [if_neg hj]
      · by_cases hj : j = o
        · simp [Memory.read, hj]
        · rw [Memory.read, if_neg (by simpa [eq_comm] using hj), if_neg hj]
    · split
      · rename_i heq
        split
        · rename_i hb
          by_cases hj : j = o
          · rw [if_pos hj, hj, hread o (by omega), hb]
          · rw [if_neg hj, Memory.read, if_neg (by omega)]
        · by_cases hj : j = o
          · simp [Memory.read, hj]
          · rw [Memory.read, if_neg (by simpa [eq_comm] using hj), if_neg hj, Memory.read, if_neg (by omega)]
      · rename_i hlo heq
        rw [Memory.read, ih hm, Memory.read]
        by_cases hj : c.1 = j
        · rw [if_pos hj, if_neg (by omega), if_pos hj]
        · rw [if_neg hj, if_neg hj]

theorem Memory.wf_writeList {m : Memory} (h : m.wf) (o : Nat) (bs : List Byte) : (m.writeList o bs).wf := by
  induction bs generalizing m o with
  | nil => exact h
  | cons b bs ih => exact ih (Memory.wf_write h o b) (o + 1)

/-- A cell after a list of bytes is stored is an old one or one of the stored span. -/
theorem Memory.mem_writeList {m : Memory} {o : Nat} {bs : List Byte} {d : Host.Cell} (h : d ∈ m.writeList o bs) :
    d ∈ m ∨ (o ≤ d.1 ∧ d.1 < o + bs.length) := by
  induction bs generalizing m o with
  | nil => exact .inl h
  | cons b bs ih =>
    rcases ih h with h | h
    · rcases Memory.mem_write h with h | h
      · exact .inl h
      · exact .inr (by simp [h])
    · exact .inr (by simp only [List.length_cons]; omega)

/-- Reading after a list of bytes is stored. -/
theorem Memory.read_writeList {m : Memory} (h : m.wf) (o : Nat) (bs : List Byte) (j : Nat) :
    (m.writeList o bs).read j = if o ≤ j then (bs[j - o]?).getD (m.read j) else m.read j := by
  induction bs generalizing m o with
  | nil => simp [Memory.writeList]
  | cons b bs ih =>
    rw [Memory.writeList, ih (Memory.wf_write h o b), Memory.read_write h]
    rcases lt_trichotomy j o with hj | hj | hj
    · rw [if_neg (by omega), if_neg (by omega), if_neg (by omega)]
    · subst hj; simp
    · rw [if_pos (by omega), if_neg (by omega), if_pos (by omega), show j - o = j - (o + 1) + 1 by omega,
        List.getElem?_cons_succ]

theorem Memory.read_writeList_of_outside {m : Memory} (h : m.wf) {o : Nat} {bs : List Byte} {j : Nat}
    (hj : j < o ∨ o + bs.length ≤ j) : (m.writeList o bs).read j = m.read j := by
  rw [Memory.read_writeList h]
  split
  · rw [List.getElem?_eq_none (by omega)]; rfl
  · rfl

@[simp] theorem Memory.length_readN (m : Memory) (o n : Nat) : (m.readN o n).length = n := by simp [Memory.readN]

@[simp] theorem Memory.getElem_readN (m : Memory) (o n k : Nat) (h : k < (m.readN o n).length) :
    (m.readN o n)[k] = m.read (o + k) := by simp [Memory.readN]

/-- The bytes just stored are read back. -/
theorem Memory.readN_writeList {m : Memory} (h : m.wf) (o : Nat) (bs : List Byte) :
    (m.writeList o bs).readN o bs.length = bs := by
  apply List.ext_getElem (by simp)
  intro k h₁ h₂
  rw [Memory.getElem_readN, Memory.read_writeList h, if_pos (by omega), Nat.add_sub_cancel_left,
    List.getElem?_eq_getElem h₂, Option.getD_some]

/-- Storing the same bytes twice is storing them once. -/
theorem Memory.ext {m n : Memory} (hm : m.wf) (hn : n.wf) (h : ∀ o, m.read o = n.read o) : m = n := by
  induction m generalizing n with
  | nil =>
    cases n with
    | nil => rfl
    | cons c n =>
      have := h c.1
      obtain ⟨_, hne, _⟩ := Memory.wf_cons.1 hn
      simp [Memory.read] at this
      exact absurd this.symm hne
  | cons c m ih =>
    obtain ⟨hlt, hne, hm'⟩ := Memory.wf_cons.1 hm
    cases n with
    | nil =>
      have := h c.1
      simp [Memory.read] at this
      exact absurd this hne
    | cons d n =>
      obtain ⟨hlt', hne', hn'⟩ := Memory.wf_cons.1 hn
      have hc := h c.1
      have hd := h d.1
      rw [Memory.read, if_pos rfl] at hc
      rw [Memory.read.eq_def (d :: n) d.1] at hd
      simp only [if_pos] at hd
      have e1 : c.1 = d.1 := by
        rcases lt_trichotomy c.1 d.1 with hlt1 | heq | hgt
        · rw [Memory.read_of_lt] at hc
          · exact absurd hc hne
          · intro x hx
            rcases List.mem_cons.1 hx with hx | hx
            · rw [hx]; exact hlt1
            · exact lt_trans hlt1 (hlt' x hx)
        · exact heq
        · rw [Memory.read_of_lt] at hd
          · exact absurd hd.symm hne'
          · intro x hx
            rcases List.mem_cons.1 hx with hx | hx
            · rw [hx]; exact hgt
            · exact lt_trans hgt (hlt x hx)
      have e2 : c = d := by
        refine Prod.ext e1 ?_
        rw [Memory.read, if_pos e1.symm] at hc
        exact hc
      subst e2
      congr 1
      apply ih hm' hn'
      intro o
      by_cases ho : c.1 = o
      · subst ho
        rw [Memory.read_of_lt hlt, Memory.read_of_lt hlt']
      · have := h o
        rwa [Memory.read, if_neg ho, Memory.read, if_neg ho] at this

end Sys2Proof.Machine
end

