-- ==== Sys2Proof/Laws/State.lean ====
section
/-! SUPPORT. One lemma per field per update of the state. -/

namespace Sys2Proof.Machine

section
variable (s : State) (r : Reg) (q : FReg) (v : Word) (e : Event) (h : Halt) (len : ILen)

@[simp] theorem setX_cfg : (s.setX r v).cfg = s.cfg := by unfold State.setX; split <;> rfl
@[simp] theorem setX_fpr : (s.setX r v).fpr = s.fpr := by unfold State.setX; split <;> rfl
@[simp] theorem setX_pc : (s.setX r v).pc = s.pc := by unfold State.setX; split <;> rfl
@[simp] theorem setX_running : (s.setX r v).running = s.running := by unfold State.setX; split <;> rfl
@[simp] theorem setX_debug : (s.setX r v).debug = s.debug := by unfold State.setX; split <;> rfl
@[simp] theorem setX_halt : (s.setX r v).halt = s.halt := by unfold State.setX; split <;> rfl
@[simp] theorem setX_log : (s.setX r v).log = s.log := by unfold State.setX; split <;> rfl
@[simp] theorem setX_buf : (s.setX r v).buf = s.buf := by unfold State.setX; split <;> rfl

@[simp] theorem setF_cfg : (s.setF q v).cfg = s.cfg := rfl
@[simp] theorem setF_gpr : (s.setF q v).gpr = s.gpr := rfl
@[simp] theorem setF_pc : (s.setF q v).pc = s.pc := rfl
@[simp] theorem setF_running : (s.setF q v).running = s.running := rfl
@[simp] theorem setF_debug : (s.setF q v).debug = s.debug := rfl
@[simp] theorem setF_halt : (s.setF q v).halt = s.halt := rfl
@[simp] theorem setF_log : (s.setF q v).log = s.log := rfl
@[simp] theorem setF_buf : (s.setF q v).buf = s.buf := rfl

@[simp] theorem setPc_cfg : (s.setPc v).cfg = s.cfg := rfl
@[simp] theorem setPc_gpr : (s.setPc v).gpr = s.gpr := rfl
@[simp] theorem setPc_fpr : (s.setPc v).fpr = s.fpr := rfl
@[simp] theorem setPc_pc : (s.setPc v).pc = trunc s.cfg.xlen v := rfl
@[simp] theorem setPc_running : (s.setPc v).running = s.running := rfl
@[simp] theorem setPc_debug : (s.setPc v).debug = s.debug := rfl
@[simp] theorem setPc_halt : (s.setPc v).halt = s.halt := rfl
@[simp] theorem setPc_log : (s.setPc v).log = s.log := rfl
@[simp] theorem setPc_buf : (s.setPc v).buf = s.buf := rfl

@[simp] theorem nextPc_cfg : (s.nextPc len).cfg = s.cfg := rfl
@[simp] theorem nextPc_gpr : (s.nextPc len).gpr = s.gpr := rfl
@[simp] theorem nextPc_fpr : (s.nextPc len).fpr = s.fpr := rfl
@[simp] theorem nextPc_pc : (s.nextPc len).pc = trunc s.cfg.xlen (s.pc + BitVec.ofNat 64 len.bytes) := rfl
@[simp] theorem nextPc_running : (s.nextPc len).running = s.running := rfl
@[simp] theorem nextPc_debug : (s.nextPc len).debug = s.debug := rfl
@[simp] theorem nextPc_halt : (s.nextPc len).halt = s.halt := rfl
@[simp] theorem nextPc_log : (s.nextPc len).log = s.log := rfl
@[simp] theorem nextPc_buf : (s.nextPc len).buf = s.buf := rfl

@[simp] theorem emit_cfg : (s.emit e).cfg = s.cfg := rfl
@[simp] theorem emit_gpr : (s.emit e).gpr = s.gpr := rfl
@[simp] theorem emit_fpr : (s.emit e).fpr = s.fpr := rfl
@[simp] theorem emit_pc : (s.emit e).pc = s.pc := rfl
@[simp] theorem emit_running : (s.emit e).running = s.running := rfl
@[simp] theorem emit_debug : (s.emit e).debug = s.debug := rfl
@[simp] theorem emit_halt : (s.emit e).halt = s.halt := rfl
@[simp] theorem emit_log : (s.emit e).log = s.log ++ [e] := rfl
@[simp] theorem emit_buf : (s.emit e).buf = s.buf := rfl

@[simp] theorem haltWith_cfg : (s.haltWith h).cfg = s.cfg := rfl
@[simp] theorem haltWith_gpr : (s.haltWith h).gpr = s.gpr := rfl
@[simp] theorem haltWith_fpr : (s.haltWith h).fpr = s.fpr := rfl
@[simp] theorem haltWith_pc : (s.haltWith h).pc = s.pc := rfl
@[simp] theorem haltWith_running : (s.haltWith h).running = false := rfl
@[simp] theorem haltWith_debug : (s.haltWith h).debug = s.debug := rfl
@[simp] theorem haltWith_halt : (s.haltWith h).halt = h := rfl
@[simp] theorem haltWith_log : (s.haltWith h).log = s.log ++ [.haltReport h] := rfl
@[simp] theorem haltWith_buf : (s.haltWith h).buf = s.buf := rfl

end

/-- The trace event touches the log alone (40_fetch_engine.md R140). -/
theorem traceInstr_eq (s : State) (d : Fetched) :
    s.traceInstr d = { s with log := s.log ++ (if s.debug then [.instrTrace s.pc d.len d.bits] else []) } := by
  unfold State.traceInstr
  by_cases h : s.debug = true
  · rw [if_pos h, if_pos h]; rfl
  · rw [if_neg h, if_neg h, List.append_nil]

section
variable (s : State) (d : Fetched)

@[simp] theorem traceInstr_cfg : (s.traceInstr d).cfg = s.cfg := by rw [traceInstr_eq]
@[simp] theorem traceInstr_gpr : (s.traceInstr d).gpr = s.gpr := by rw [traceInstr_eq]
@[simp] theorem traceInstr_fpr : (s.traceInstr d).fpr = s.fpr := by rw [traceInstr_eq]
@[simp] theorem traceInstr_pc : (s.traceInstr d).pc = s.pc := by rw [traceInstr_eq]
@[simp] theorem traceInstr_running : (s.traceInstr d).running = s.running := by rw [traceInstr_eq]
@[simp] theorem traceInstr_debug : (s.traceInstr d).debug = s.debug := by rw [traceInstr_eq]
@[simp] theorem traceInstr_halt : (s.traceInstr d).halt = s.halt := by rw [traceInstr_eq]
@[simp] theorem traceInstr_buf : (s.traceInstr d).buf = s.buf := by rw [traceInstr_eq]
@[simp] theorem traceInstr_log :
    (s.traceInstr d).log = s.log ++ (if s.debug then [.instrTrace s.pc d.len d.bits] else []) := by rw [traceInstr_eq]

end

/-! ### Reading through the accessors -/

/-- A register reads alike in two states that hold the same file. -/
theorem x_congr {s t : State} (h : t.gpr = s.gpr) (r : Reg) : t.x r = s.x r := by
  unfold State.x
  split
  · rfl
  · simp only [h]

theorem f_congr {s t : State} (h : t.fpr = s.fpr) (r : FReg) : t.f r = s.f r := by
  unfold State.f; simp only [h]

theorem byteAt_congr {s t : State} (hc : t.cfg = s.cfg) (hb : t.buf = s.buf) (a : Nat) :
    t.byteAt a = s.byteAt a := by
  unfold State.byteAt; rw [hc, hb]

section
variable (s : State) (r : Reg) (v : Word) (e : Event) (h : Halt) (len : ILen) (d : Fetched)

@[simp] theorem setPc_x : (s.setPc v).x r = s.x r := rfl
@[simp] theorem nextPc_x : (s.nextPc len).x r = s.x r := rfl
@[simp] theorem emit_x : (s.emit e).x r = s.x r := rfl
@[simp] theorem haltWith_x : (s.haltWith h).x r = s.x r := rfl
@[simp] theorem traceInstr_x : (s.traceInstr d).x r = s.x r := x_congr (traceInstr_gpr s d) r

@[simp] theorem setX_f (q : FReg) : (s.setX r v).f q = s.f q := f_congr (setX_fpr s r v) q
@[simp] theorem setPc_f (q : FReg) : (s.setPc v).f q = s.f q := rfl
@[simp] theorem nextPc_f (q : FReg) : (s.nextPc len).f q = s.f q := rfl
@[simp] theorem emit_f (q : FReg) : (s.emit e).f q = s.f q := rfl
@[simp] theorem haltWith_f (q : FReg) : (s.haltWith h).f q = s.f q := rfl
@[simp] theorem traceInstr_f (q : FReg) : (s.traceInstr d).f q = s.f q := f_congr (traceInstr_fpr s d) q

@[simp] theorem setX_byteAt (a : Nat) : (s.setX r v).byteAt a = s.byteAt a :=
  byteAt_congr (setX_cfg s r v) (setX_buf s r v) a
@[simp] theorem setPc_byteAt (a : Nat) : (s.setPc v).byteAt a = s.byteAt a := rfl
@[simp] theorem nextPc_byteAt (a : Nat) : (s.nextPc len).byteAt a = s.byteAt a := rfl
@[simp] theorem emit_byteAt (a : Nat) : (s.emit e).byteAt a = s.byteAt a := rfl
@[simp] theorem haltWith_byteAt (a : Nat) : (s.haltWith h).byteAt a = s.byteAt a := rfl
@[simp] theorem traceInstr_byteAt (a : Nat) : (s.traceInstr d).byteAt a = s.byteAt a :=
  byteAt_congr (traceInstr_cfg s d) (traceInstr_buf s d) a

/-- `x0` reads 0 (10_state.md R21). -/
@[simp] theorem x_zero : s.x 0 = 0 := rfl

/-- A write to `x0` is discarded (10_state.md R22). -/
@[simp] theorem setX_zero : s.setX 0 v = s := rfl

end

/-- What a register reads after a write (10_state.md R21, R22). -/
theorem setX_x (s : State) (r q : Reg) (v : Word) :
    (s.setX r v).x q = if q = r ∧ r ≠ 0 then trunc s.cfg.xlen v else s.x q := by
  by_cases hr : r = 0
  · subst hr; simp
  · have hr' : r.val ≠ 0 := fun h => hr (Fin.ext h)
    by_cases hq : q = r
    · subst hq
      simp [State.setX, State.x, hr', hr]
    · have hv : r.val ≠ q.val := fun h => hq (Fin.ext h.symm)
      simp only [State.setX, hr', dif_neg, not_false_eq_true, State.x, hq, false_and, if_false]
      split
      · rfl
      · rename_i h0
        exact Vector.getElem_set_ne _ _ (by omega)

theorem setX_x_same (s : State) {r : Reg} (h : r ≠ 0) (v : Word) : (s.setX r v).x r = trunc s.cfg.xlen v := by
  simp [setX_x, h]

theorem setX_x_ne (s : State) {r q : Reg} (h : q ≠ r) (v : Word) : (s.setX r v).x q = s.x q := by
  simp [setX_x, h]

/-- What a floating-point register reads after a write (10_state.md R26). -/
theorem setF_f (s : State) (r q : FReg) (v : Word) :
    (s.setF r v).f q = if q = r then trunc s.cfg.xlen v else s.f q := by
  by_cases hq : q = r
  · subst hq; simp [State.setF, State.f]
  · have hv : r.val ≠ q.val := fun h => hq (Fin.ext h.symm)
    simp only [State.setF, State.f, hq, if_false]
    exact Vector.getElem_set_ne _ _ hv

end Sys2Proof.Machine
end

