-- ==== Sys2Proof/Laws/Ops.lean ====
section
/-! SUPPORT. One specification per shared operation: the phases, translation, the bus, and the fetch. -/

namespace Sys2Proof.Machine

/-! ### The phases (10_state.md R32) -/

theorem phase_running (s : State) : s.phase = .running ↔ s.running = true := by
  unfold State.phase; split
  · simp_all
  · split <;> simp_all

theorem phase_idle (s : State) : s.phase = .idle ↔ s.running = false ∧ s.halt = .none := by
  unfold State.phase; split
  · simp_all
  · split <;> simp_all

theorem phase_halted (s : State) : s.phase = .halted ↔ s.running = false ∧ s.halt ≠ .none := by
  unfold State.phase; split
  · simp_all
  · split <;> simp_all

/-! ### Translation (20_memory.md R52) -/

theorem translate_in {c : Config} {a : Nat} (h : c.base ≤ a ∧ a ≤ c.top) : translate c a = .ok (a - c.base) :=
  if_pos h

theorem translate_out {c : Config} {a : Nat} (h : ¬(c.base ≤ a ∧ a ≤ c.top)) :
    translate c a = .error (.addressOutOfRange a) := if_neg h

theorem byteAt_in {s : State} {a : Nat} (h : s.cfg.base ≤ a ∧ a ≤ s.cfg.top) :
    s.byteAt a = some (s.buf.read (a - s.cfg.base)) := by
  unfold State.byteAt; rw [translate_in h]

theorem byteAt_out {s : State} {a : Nat} (h : ¬(s.cfg.base ≤ a ∧ a ≤ s.cfg.top)) : s.byteAt a = none := by
  unfold State.byteAt; rw [translate_out h]

theorem byteAt_some {s : State} {a : Nat} {b : Byte} (h : s.byteAt a = some b) :
    (s.cfg.base ≤ a ∧ a ≤ s.cfg.top) ∧ s.buf.read (a - s.cfg.base) = b := by
  by_cases hr : s.cfg.base ≤ a ∧ a ≤ s.cfg.top
  · rw [byteAt_in hr] at h; exact ⟨hr, Option.some.inj h⟩
  · rw [byteAt_out hr] at h; cases h

/-! ### Scalar accesses (20_memory.md R55 to R58) -/

theorem Width.bytes_pos (w : Width) : 0 < w.bytes := by cases w <;> decide

theorem scalarCheck_misaligned {c : Config} {a : Word} {w : Width} (f : Fault) (h : a.toNat % w.bytes ≠ 0) :
    scalarCheck c a w f = .error (.unalignedAccess a) := if_pos h

theorem scalarCheck_in {c : Config} {a : Word} {w : Width} (f : Fault) (h : a.toNat % w.bytes = 0)
    (hlo : c.base ≤ a.toNat) (hhi : a.toNat + w.bytes - 1 ≤ c.top) : scalarCheck c a w f = .ok (a.toNat - c.base) := by
  have hw := Width.bytes_pos w
  rw [scalarCheck, if_neg (by simpa using h), translate_in (by omega), translate_in (by omega)]
  rfl

theorem scalarCheck_out {c : Config} {a : Word} {w : Width} (f : Fault) (h : a.toNat % w.bytes = 0)
    (ho : a.toNat < c.base ∨ c.top < a.toNat + w.bytes - 1) : scalarCheck c a w f = .error f := by
  have hw := Width.bytes_pos w
  rw [scalarCheck, if_neg (by simpa using h)]
  by_cases h1 : c.base ≤ a.toNat + w.bytes - 1 ∧ a.toNat + w.bytes - 1 ≤ c.top
  · rw [translate_in h1, translate_out (by omega)]; rfl
  · rw [translate_out h1]; rfl

theorem memRead_misaligned {s : State} {a : Word} {w : Width} (h : a.toNat % w.bytes ≠ 0) :
    s.memRead a w = .error (.unalignedAccess a) := by
  rw [State.memRead, scalarCheck_misaligned _ h]

theorem memRead_out {s : State} {a : Word} {w : Width} (h : a.toNat % w.bytes = 0)
    (ho : a.toNat < s.cfg.base ∨ s.cfg.top < a.toNat + w.bytes - 1) :
    s.memRead a w = .error (.loadAddressFault a) := by
  rw [State.memRead, scalarCheck_out _ h ho]

theorem memRead_in {s : State} {a : Word} {w : Width} (h : a.toNat % w.bytes = 0)
    (hlo : s.cfg.base ≤ a.toNat) (hhi : a.toNat + w.bytes - 1 ≤ s.cfg.top) :
    s.memRead a w = .ok (BitVec.ofNat _ (leNat (s.buf.readN (a.toNat - s.cfg.base) w.bytes))) := by
  rw [State.memRead, scalarCheck_in _ h hlo hhi]

/-- Everything a scalar load can do. -/
theorem memRead_cases (s : State) (a : Word) (w : Width) :
    (a.toNat % w.bytes ≠ 0 ∧ s.memRead a w = .error (.unalignedAccess a)) ∨
    (a.toNat % w.bytes = 0 ∧ (a.toNat < s.cfg.base ∨ s.cfg.top < a.toNat + w.bytes - 1) ∧
      s.memRead a w = .error (.loadAddressFault a)) ∨
    (a.toNat % w.bytes = 0 ∧ s.cfg.base ≤ a.toNat ∧ a.toNat + w.bytes - 1 ≤ s.cfg.top ∧
      s.memRead a w = .ok (BitVec.ofNat _ (leNat (s.buf.readN (a.toNat - s.cfg.base) w.bytes)))) := by
  by_cases h : a.toNat % w.bytes = 0
  · by_cases ho : a.toNat < s.cfg.base ∨ s.cfg.top < a.toNat + w.bytes - 1
    · exact .inr (.inl ⟨h, ho, memRead_out h ho⟩)
    · push Not at ho
      exact .inr (.inr ⟨h, ho.1, ho.2, memRead_in h ho.1 ho.2⟩)
  · exact .inl ⟨h, memRead_misaligned h⟩

/-- A scalar load is a function of the parameters and the buffer alone. -/
theorem memRead_congr {s t : State} (hc : t.cfg = s.cfg) (hb : t.buf = s.buf) (a : Word) (w : Width) :
    t.memRead a w = s.memRead a w := by
  unfold State.memRead; rw [hc, hb]

/-- Byte `k` of a loaded value is the byte of memory at `a + k` (20_memory.md R59). -/
theorem memRead_byte {s : State} {a : Word} {w : Width} {v : BitVec (8 * w.bytes)} (h : s.memRead a w = .ok v)
    {k : Nat} (hk : k < w.bytes) : s.byteAt (a.toNat + k) = some (v.extractLsb' (8 * k) 8) := by
  rcases memRead_cases s a w with ⟨_, h'⟩ | ⟨_, _, h'⟩ | ⟨_, hlo, hhi, h'⟩
  · rw [h'] at h; cases h
  · rw [h'] at h; cases h
  · rw [h'] at h
    obtain rfl := Except.ok.inj h
    rw [byteAt_in (by omega)]
    congr 1
    apply BitVec.eq_of_toNat_eq
    have hlt : leNat (s.buf.readN (a.toNat - s.cfg.base) w.bytes) < 2 ^ (8 * w.bytes) := by
      simpa using leNat_lt (s.buf.readN (a.toNat - s.cfg.base) w.bytes)
    have hb := leNat_byte (s.buf.readN (a.toNat - s.cfg.base) w.bytes) k (by simpa using hk)
    rw [BitVec.extractLsb'_toNat, BitVec.toNat_ofNat, Nat.mod_eq_of_lt hlt, hb, Memory.getElem_readN]
    congr 2
    omega

theorem memWrite_in {s : State} {a : Word} {w : Width} (v : BitVec (8 * w.bytes)) (h : a.toNat % w.bytes = 0)
    (hlo : s.cfg.base ≤ a.toNat) (hhi : a.toNat + w.bytes - 1 ≤ s.cfg.top) :
    s.memWrite a w v = .ok { s with buf := s.buf.writeList (a.toNat - s.cfg.base) (leBytes w.bytes v) } := by
  rw [State.memWrite, scalarCheck_in _ h hlo hhi]

/-! ### Byte-range accesses (20_memory.md R60, R61) -/

theorem rangeCheck_start {c : Config} {a : Word} {len : Nat} {mk : Word → Fault}
    (h : ¬(c.base ≤ a.toNat ∧ a.toNat ≤ c.top)) : rangeCheck c a len mk = .error (mk a) := by
  rw [rangeCheck, translate_out h]; rfl

theorem rangeCheck_end {c : Config} {a : Word} {len : Nat} {mk : Word → Fault}
    (h : c.base ≤ a.toNat ∧ a.toNat ≤ c.top) (he : c.top < a.toNat + len) :
    rangeCheck c a len mk = .error (mk (BitVec.ofNat 64 ((a.toNat + len) % 2 ^ c.xlen.bits))) := by
  rw [rangeCheck, translate_in h, translate_out (by omega), truncNat_eq]; rfl

theorem rangeCheck_in {c : Config} {a : Word} {len : Nat} {mk : Word → Fault}
    (h : c.base ≤ a.toNat) (he : a.toNat + len ≤ c.top) : rangeCheck c a len mk = .ok (a.toNat - c.base) := by
  rw [rangeCheck, translate_in (by omega), translate_in (by omega)]; rfl

/-- Everything a byte-range read can do. -/
theorem readBytes_cases (s : State) (a : Word) (len : Nat) :
    (¬(s.cfg.base ≤ a.toNat ∧ a.toNat ≤ s.cfg.top) ∧ s.readBytes a len = .error (.loadAddressFault a)) ∨
    (s.cfg.base ≤ a.toNat ∧ a.toNat ≤ s.cfg.top ∧ s.cfg.top < a.toNat + len ∧
      s.readBytes a len = .error (.loadAddressFault (BitVec.ofNat 64 ((a.toNat + len) % s.modulus)))) ∨
    (s.cfg.base ≤ a.toNat ∧ a.toNat + len ≤ s.cfg.top ∧
      s.readBytes a len = .ok (s.buf.readN (a.toNat - s.cfg.base) len)) := by
  by_cases h : s.cfg.base ≤ a.toNat ∧ a.toNat ≤ s.cfg.top
  · by_cases he : s.cfg.top < a.toNat + len
    · refine .inr (.inl ⟨h.1, h.2, he, ?_⟩)
      rw [State.readBytes, rangeCheck_end h he]; rfl
    · refine .inr (.inr ⟨h.1, by omega, ?_⟩)
      rw [State.readBytes, rangeCheck_in h.1 (by omega)]
  · refine .inl ⟨h, ?_⟩
    rw [State.readBytes, rangeCheck_start h]

theorem writeBytes_in {s : State} {a : Word} (d : List Byte) (h : s.cfg.base ≤ a.toNat)
    (he : a.toNat + d.length ≤ s.cfg.top) :
    s.writeBytes a d = .ok { s with buf := s.buf.writeList (a.toNat - s.cfg.base) d } := by
  rw [State.writeBytes, rangeCheck_in h he]

/-- Bytes stored at an address inside the range change no byte outside them. -/
theorem byteAt_writeList_outside {s : State} (hw : s.buf.wf) {a : Nat} (ha : s.cfg.base ≤ a) (d : List Byte) {b : Nat}
    (hb : b < a ∨ a + d.length ≤ b) :
    State.byteAt { s with buf := s.buf.writeList (a - s.cfg.base) d } b = s.byteAt b := by
  by_cases hr : s.cfg.base ≤ b ∧ b ≤ s.cfg.top
  · rw [byteAt_in hr, byteAt_in (s := { s with buf := s.buf.writeList (a - s.cfg.base) d }) hr]
    exact congrArg some (Memory.read_writeList_of_outside hw (by simp only; omega))
  · rw [byteAt_out hr, byteAt_out (s := { s with buf := s.buf.writeList (a - s.cfg.base) d }) hr]

/-- Bytes stored at an address inside the range are read back. -/
theorem byteAt_writeList_inside {s : State} (hw : s.buf.wf) {a : Nat} (ha : s.cfg.base ≤ a) (d : List Byte) {k : Nat}
    (hk : k < d.length) (hhi : a + k ≤ s.cfg.top) :
    State.byteAt { s with buf := s.buf.writeList (a - s.cfg.base) d } (a + k) = d[k]? := by
  rw [byteAt_in (s := { s with buf := s.buf.writeList (a - s.cfg.base) d }) ⟨by simp only; omega, hhi⟩]
  simp only [Memory.read_writeList hw]
  rw [if_pos (by omega), show a + k - s.cfg.base - (a - s.cfg.base) = k by omega, List.getElem?_eq_getElem hk,
    Option.getD_some]

/-! ### The fetch (40_fetch_engine.md R135 to R138) -/

/-- A fetch depends on the parameters, the pc and the buffer alone. -/
theorem fetch_congr {s t : State} (hc : t.cfg = s.cfg) (hb : t.buf = s.buf) (hp : t.pc = s.pc) :
    t.fetch = s.fetch := by
  simp only [State.fetch, State.fetchParcel, State.secondPc, memRead_congr hc hb, hc, hp]

/-- The parcel of two bytes of memory. -/
theorem fetchParcel_in {s : State} {a : Word} {b0 b1 : Byte} (h : a.toNat % 2 = 0)
    (h0 : s.byteAt a.toNat = some b0) (h1 : s.byteAt (a.toNat + 1) = some b1) :
    s.fetchParcel a = .ok (BitVec.ofNat 16 (parcelNat b0 b1)) := by
  obtain ⟨r0, e0⟩ := byteAt_some h0
  obtain ⟨r1, e1⟩ := byteAt_some h1
  rw [State.fetchParcel, memRead_in (w := .w2) h r0.1 (by simp only [Width.bytes]; omega)]
  have e : a.toNat + 1 - s.cfg.base = a.toNat - s.cfg.base + 1 := by omega
  rw [e] at e1
  have hl : leNat (s.buf.readN (a.toNat - s.cfg.base) Width.w2.bytes) = parcelNat b0 b1 := by
    simp [Memory.readN, Width.bytes, List.range_succ, leNat, e0, e1, parcelNat]
  simp only [hl]
  congr 1

theorem fetchParcel_misaligned {s : State} {a : Word} (h : a.toNat % 2 = 1) :
    s.fetchParcel a = .error (.unalignedAccess a) := by
  rw [State.fetchParcel, memRead_misaligned (w := .w2) (by simp only [Width.bytes]; omega)]

theorem fetchParcel_out {s : State} {a : Word} (h : a.toNat % 2 = 0)
    (ho : a.toNat < s.cfg.base ∨ s.cfg.top < a.toNat + 1) : s.fetchParcel a = .error (.loadAddressFault a) := by
  rw [State.fetchParcel, memRead_out (w := .w2) h (by simp only [Width.bytes]; omega)]

/-- A fetch that succeeds read an even pc inside the range. -/
theorem fetch_ok {s : State} {d : Fetched} (h : s.fetch = .ok d) :
    s.pc.toNat % 2 = 0 ∧ s.cfg.base ≤ s.pc.toNat ∧ s.pc.toNat + 1 ≤ s.cfg.top := by
  by_cases h2 : s.pc.toNat % 2 = 1
  · rw [State.fetch, fetchParcel_misaligned h2] at h; cases h
  · by_cases ho : s.pc.toNat < s.cfg.base ∨ s.cfg.top < s.pc.toNat + 1
    · rw [State.fetch, fetchParcel_out (by omega) ho] at h; cases h
    · omega

/-- The faults a parcel fetch raises. -/
theorem fetchParcel_error {s : State} {a : Word} {f : Fault} (h : s.fetchParcel a = .error f) :
    f = .unalignedAccess a ∨ f = .loadAddressFault a := by
  unfold State.fetchParcel at h
  rcases memRead_cases s a .w2 with ⟨_, h'⟩ | ⟨_, _, h'⟩ | ⟨_, _, _, h'⟩ <;> rw [h'] at h <;> simp_all

/-- The faults a fetch raises (60_exceptions.md R235, items 1 to 4). -/
theorem fetch_error {s : State} {f : Fault} (h : s.fetch = .error f) :
    f = .unalignedAccess s.pc ∨ f = .loadAddressFault s.pc ∨ (∃ lo, f = .illegalInstruction lo s.pc) ∨
      f = .unalignedAccess s.secondPc ∨ f = .loadAddressFault s.secondPc := by
  unfold State.fetch at h
  split at h
  · rename_i f' hf
    obtain rfl : f' = f := by simpa using h
    rcases fetchParcel_error hf with h | h <;> simp [h]
  · split at h
    · cases h
    · split at h
      · simp only [Except.error.injEq] at h
        exact .inr (.inr (.inl ⟨_, h.symm⟩))
      · split at h
        · rename_i f' hf
          obtain rfl : f' = f := by simpa using h
          rcases fetchParcel_error hf with h | h <;> simp [h]
        · cases h

end Sys2Proof.Machine
end

