-- ==== Sys2Proof/Laws/Exec.lean ====
section
/-! SUPPORT. Said once, everything a meaning, a tick and a step can do. -/

namespace Sys2Proof.Machine

/-- What the meaning of a load can do (42_loads.md R180, R181). -/
theorem loadTo_cases (rd : Reg) (a : Word) (w : Width) (s : State) :
    (∃ v, s.memRead a w = .ok v ∧ loadTo rd a w s = .next ((s.setX rd (zext s.cfg.xlen v)).nextPc .four)) ∨
    (a.toNat % w.bytes ≠ 0 ∧ loadTo rd a w s = .next (s.haltWith (.fault (.unalignedAccess a)))) ∨
    (a.toNat % w.bytes = 0 ∧ (a.toNat < s.cfg.base ∨ s.cfg.top < a.toNat + w.bytes - 1) ∧
      loadTo rd a w s = .next (s.haltWith (.fault (.loadAddressFault a)))) := by
  unfold loadTo
  rcases memRead_cases s a w with ⟨h, e⟩ | ⟨h, ho, e⟩ | ⟨_, _, _, e⟩
  · exact .inr (.inl ⟨h, by rw [e]; rfl⟩)
  · exact .inr (.inr ⟨h, ho, by rw [e]; rfl⟩)
  · exact .inl ⟨_, e, by rw [e]⟩

/-- The state of an ECALL once its syscall is traced (44_system_syscall.md R203). -/
def State.traceSyscall (s : State) : State := s.emit (.syscallTrace s.syscallNum s.syscallArgs)

/-- What an ECALL can do (44_system_syscall.md R206, R211, R213, R214). -/
theorem ecall_cases (s : State) :
    (∃ bytes, s.x Reg.a7 = sysWriteNum ∧ s.readBytes (s.x Reg.a1) (s.x Reg.a2).toNat = .ok bytes ∧
      exec .ecall s = .next (((s.traceSyscall.emit (.writeOut (s.x Reg.a0) bytes)).setX Reg.a0 0).nextPc .four)) ∨
    (∃ f, s.x Reg.a7 = sysWriteNum ∧ s.readBytes (s.x Reg.a1) (s.x Reg.a2).toNat = .error f ∧
      exec .ecall s = .next (s.traceSyscall.haltWith (.fault f))) ∨
    (s.x Reg.a7 = sysExitNum ∧ exec .ecall s = .next
      ((({ s.traceSyscall with running := false, halt := .exit } : State).emit
        (.exitDiag (s.x Reg.a0) (s.x Reg.a1 == 0))).nextPc .four)) ∨
    (s.x Reg.a7 ≠ sysWriteNum ∧ s.x Reg.a7 ≠ sysExitNum ∧ exec .ecall s = .next (s.traceSyscall.nextPc .four)) := by
  by_cases hw : s.x Reg.a7 = sysWriteNum
  · have e : exec .ecall s = sysWrite s.syscallArgs s.traceSyscall := if_pos hw
    have hr : sysWrite s.syscallArgs s.traceSyscall =
        match s.readBytes (s.x Reg.a1) (s.x Reg.a2).toNat with
        | .error f => .next (s.traceSyscall.haltWith (.fault f))
        | .ok bytes => .next (((s.traceSyscall.emit (.writeOut (s.x Reg.a0) bytes)).setX Reg.a0 0).nextPc .four) := rfl
    cases hb : s.readBytes (s.x Reg.a1) (s.x Reg.a2).toNat with
    | ok bytes => exact .inl ⟨bytes, hw, rfl, by rw [e, hr, hb]⟩
    | error f => exact .inr (.inl ⟨f, hw, rfl, by rw [e, hr, hb]⟩)
  · by_cases he : s.x Reg.a7 = sysExitNum
    · exact .inr (.inr (.inl ⟨he, (if_neg hw).trans (if_pos he)⟩))
    · exact .inr (.inr (.inr ⟨hw, he, (if_neg hw).trans (if_neg he)⟩))

/-- Everything an operation can do: write its destination and the pc, write the pc alone, halt on a load's fault, or,
for ECALL, one of the four of `ecall_cases`. -/
theorem exec_cases (i : Instr) (s : State) :
    (∃ rd v p, Instr.dest i = some rd ∧ i ≠ .ecall ∧ exec i s = .next ((s.setX rd v).setPc p)) ∨
    (∃ p, Instr.dest i = none ∧ i ≠ .ecall ∧ exec i s = .next (s.setPc p)) ∨
    (∃ rs1 imm f, i ≠ .ecall ∧ (f = .unalignedAccess (s.ea rs1 imm) ∨ f = .loadAddressFault (s.ea rs1 imm)) ∧
      exec i s = .next (s.haltWith (.fault f))) ∨
    i = .ecall := by
  have load : ∀ rd rs1 imm w, loadTo rd (s.ea rs1 imm) w s = exec i s → Instr.dest i = some rd → i ≠ .ecall →
      (∃ rd v p, Instr.dest i = some rd ∧ i ≠ .ecall ∧ exec i s = .next ((s.setX rd v).setPc p)) ∨
      (∃ rs1 imm f, i ≠ .ecall ∧ (f = .unalignedAccess (s.ea rs1 imm) ∨ f = .loadAddressFault (s.ea rs1 imm)) ∧
        exec i s = .next (s.haltWith (.fault f))) := by
    intro rd rs1 imm w h hd hne
    rcases loadTo_cases rd (s.ea rs1 imm) w s with ⟨v, _, e⟩ | ⟨_, e⟩ | ⟨_, _, e⟩
    · exact .inl ⟨rd, _, _, hd, hne, h ▸ e⟩
    · exact .inr ⟨rs1, imm, _, hne, .inl rfl, h ▸ e⟩
    · exact .inr ⟨rs1, imm, _, hne, .inr rfl, h ▸ e⟩
  cases i with
  | add rd rs1 rs2 => exact .inl ⟨rd, _, _, rfl, by simp, rfl⟩
  | sub rd rs1 rs2 => exact .inl ⟨rd, _, _, rfl, by simp, rfl⟩
  | slli rd rs1 shamt => exact .inl ⟨rd, _, _, rfl, by simp, rfl⟩
  | addi rd rs1 imm => exact .inl ⟨rd, _, _, rfl, by simp, rfl⟩
  | auipc rd imm => exact .inl ⟨rd, _, _, rfl, by simp, rfl⟩
  | lb rd rs1 imm =>
    rcases load rd rs1 imm .w1 rfl rfl (by simp) with h | h
    · exact .inl h
    · exact .inr (.inr (.inl h))
  | lw rd rs1 imm =>
    rcases load rd rs1 imm s.cfg.xlen.width rfl rfl (by simp) with h | h
    · exact .inl h
    · exact .inr (.inr (.inl h))
  | jal rd imm => exact .inl ⟨rd, _, _, rfl, by simp, rfl⟩
  | jalr rd rs1 imm => exact .inl ⟨rd, _, _, rfl, by simp, rfl⟩
  | bne rs1 rs2 imm =>
    refine .inr (.inl ?_)
    by_cases h : s.differ rs1 rs2 = true
    · exact ⟨_, rfl, by simp, by simp only [exec, execBne, h, if_true]; rfl⟩
    · exact ⟨_, rfl, by simp, by simp only [exec, execBne, h]; rfl⟩
  | ecall => exact .inr (.inr (.inr rfl))

/-- Every operation answers a next state. -/
theorem exec_answers (i : Instr) (s : State) : ∃ t, exec i s = .next t := by
  rcases exec_cases i s with ⟨_, _, _, _, _, e⟩ | ⟨_, _, _, e⟩ | ⟨_, _, _, _, _, e⟩ | rfl
  · exact ⟨_, e⟩
  · exact ⟨_, e⟩
  · exact ⟨_, e⟩
  · rcases ecall_cases s with ⟨_, _, _, e⟩ | ⟨_, _, _, e⟩ | ⟨_, e⟩ | ⟨_, _, e⟩ <;> exact ⟨_, e⟩

/-- What a tick of the running engine is (40_fetch_engine.md R133). -/
theorem step_running {s : State} (h : s.phase = .running) :
    step s = match s.fetch with
      | .error f => .next (s.haltWith (.fault f))
      | .ok d => dispatch s d := by
  unfold step tick
  rw [h]
  cases s.fetch <;> rfl

theorem step_fetch_error {s : State} {f : Fault} (h : s.phase = .running) (hf : s.fetch = .error f) :
    step s = .next (s.haltWith (.fault f)) := by
  rw [step_running h, hf]

theorem step_illegal {s : State} {d : Fetched} (h : s.phase = .running) (hf : s.fetch = .ok d)
    (hd : decode s.cfg d.len d.bits = .illegal) :
    step s = .next (s.haltWith (.fault (.illegalInstruction d.bits s.pc))) := by
  rw [step_running h, hf]; simp only [dispatch, hd, takeFault]

theorem step_unimplemented {s : State} {d : Fetched} (h : s.phase = .running) (hf : s.fetch = .ok d)
    (hd : decode s.cfg d.len d.bits = .unimplemented) :
    step s = .next ((s.traceInstr d).haltWith (.unimplemented d.bits s.pc)) := by
  rw [step_running h, hf]; simp only [dispatch, hd]

theorem step_op {s : State} {d : Fetched} {i : Instr} (h : s.phase = .running) (hf : s.fetch = .ok d)
    (hd : decode s.cfg d.len d.bits = .op i) : step s = exec i (s.traceInstr d) := by
  rw [step_running h, hf]; simp only [dispatch, hd]

theorem step_idle {s : State} (h : s.phase = .idle) : step s = .next { s with running := true } := by
  simp only [step, h, hostRun, whenIdle, if_true, State.startRun]

theorem step_halted {s : State} (h : s.phase = .halted) : step s = .next s := by
  simp only [step, h]

/-- A 2-byte instruction is fetched from its own two bytes alone (40_fetch_engine.md R136). -/
theorem fetch_two {s : State} {b0 b1 : Byte} (h : s.pc.toNat % 2 = 0) (h0 : s.byteAt s.pc.toNat = some b0)
    (h1 : s.byteAt (s.pc.toNat + 1) = some b1) (h4 : b0.toNat % 4 ≠ 3) :
    s.fetch = .ok { len := .two, bits := BitVec.ofNat 32 (parcelNat b0 b1) } := by
  have hb : parcelNat b0 b1 < 65536 := by
    have := b0.isLt; have := b1.isLt; unfold parcelNat; omega
  have hl : lenOf (BitVec.ofNat 16 (parcelNat b0 b1)) = .two := by
    cases hc : lenOf (BitVec.ofNat 16 (parcelNat b0 b1)) with
    | two => rfl
    | four =>
      rw [Laws.two_low_bits, BitVec.toNat_ofNat] at hc
      unfold parcelNat at hc; omega
  have hz : (BitVec.ofNat 16 (parcelNat b0 b1)).setWidth 32 = BitVec.ofNat 32 (parcelNat b0 b1) := by
    apply BitVec.eq_of_toNat_eq
    simp only [BitVec.toNat_setWidth, BitVec.toNat_ofNat]
    omega
  simp only [State.fetch, fetchParcel_in h h0 h1, hl, hz]

/-- A host action is done in the idle phase (70_reset_and_hazards.md R265). -/
theorem whenIdle_idle {s : State} (h : s.phase = .idle) (k : State → Host.Outcome State Fault Refusal) :
    whenIdle s k = k s := if_pos h

/-- A host action is refused in every other phase (70_reset_and_hazards.md R265). -/
theorem whenIdle_busy {s : State} (h : s.phase ≠ .idle) (k : State → Host.Outcome State Fault Refusal) :
    whenIdle s k = .refused .notIdle := if_neg h

/-- Everything a step can do. -/
theorem step_cases {s t : State} (h : step s = .next t) :
    (s.phase = .idle ∧ t = { s with running := true }) ∨
    (s.phase = .halted ∧ t = s) ∨
    (∃ f, s.phase = .running ∧ s.fetch = .error f ∧ t = s.haltWith (.fault f)) ∨
    (∃ d, s.phase = .running ∧ s.fetch = .ok d ∧ decode s.cfg d.len d.bits = .illegal ∧
      t = s.haltWith (.fault (.illegalInstruction d.bits s.pc))) ∨
    (∃ d, s.phase = .running ∧ s.fetch = .ok d ∧ decode s.cfg d.len d.bits = .unimplemented ∧
      t = (s.traceInstr d).haltWith (.unimplemented d.bits s.pc)) ∨
    (∃ d i, s.phase = .running ∧ s.fetch = .ok d ∧ decode s.cfg d.len d.bits = .op i ∧
      exec i (s.traceInstr d) = .next t) := by
  cases hp : s.phase with
  | idle =>
    rw [step_idle hp] at h
    exact .inl ⟨rfl, (Host.Outcome.next.inj h).symm⟩
  | halted =>
    rw [step_halted hp] at h
    exact .inr (.inl ⟨rfl, (Host.Outcome.next.inj h).symm⟩)
  | running =>
    rw [step_running hp] at h
    cases hf : s.fetch with
    | error f =>
      rw [hf] at h
      exact .inr (.inr (.inl ⟨f, rfl, rfl, (Host.Outcome.next.inj h).symm⟩))
    | ok d =>
      rw [hf] at h
      simp only [dispatch] at h
      cases hd : decode s.cfg d.len d.bits with
      | illegal =>
        rw [hd] at h
        exact .inr (.inr (.inr (.inl ⟨d, rfl, rfl, hd, (Host.Outcome.next.inj h).symm⟩)))
      | unimplemented =>
        rw [hd] at h
        exact .inr (.inr (.inr (.inr (.inl ⟨d, rfl, rfl, hd, (Host.Outcome.next.inj h).symm⟩))))
      | op i =>
        rw [hd] at h
        exact .inr (.inr (.inr (.inr (.inr ⟨d, i, rfl, rfl, hd, h⟩))))

/-- A run of one step more, for any machine of the interface. -/
theorem run_succ_of_next (M : Host.Core) (n : Nat) (s t : M.State) (h : M.step s = .next t) :
    M.run (n + 1) s = M.run n t := by
  rw [Host.Core.run, h]

/-- A run of one step more, where the first step answers a next state. -/
theorem core_run_next {s t : State} (h : step s = .next t) (n : Nat) :
    Sys2Proof.core.run (n + 1) s = Sys2Proof.core.run n t :=
  run_succ_of_next Sys2Proof.core n s t h

end Sys2Proof.Machine
end

