-- ==== Sys2Proof/Laws/PerInstr.lean ====
section
/-! SUPPORT. The per-instruction family `Opcode`: the low seven bits of an encoded instruction are the opcode column of
30_encoding.md R100, whatever its operands. -/

namespace Sys2Proof.Laws.Opcode

/-- The opcode column of 30_encoding.md R100. -/
def column : Instr → BitVec 7
  | .add _ _ _ => 0b0110011
  | .sub _ _ _ => 0b0110011
  | .slli _ _ _ => 0b0010011
  | .addi _ _ _ => 0b0010011
  | .auipc _ _ => 0b0010111
  | .lb _ _ _ => 0b0000011
  | .lw _ _ _ => 0b0000011
  | .jal _ _ => 0b1101111
  | .jalr _ _ _ => 0b1100111
  | .bne _ _ _ => 0b1100011
  | .ecall => 0b1110011

/-- The encoding has the opcode of its row. -/
def Statement (i : Instr) : Prop := (encode i).extractLsb' 0 7 = column i

/-- The low part of a concatenation. -/
theorem low_append {n : Nat} (a : BitVec n) (op : BitVec 7) : (a ++ op).extractLsb' 0 7 = op := by
  apply BitVec.eq_of_getLsbD_eq
  intro k hk
  simp [BitVec.getLsbD_append, hk]

theorem add (rd rs1 rs2 : Reg) : Statement (.add rd rs1 rs2) := low_append _ _
theorem sub (rd rs1 rs2 : Reg) : Statement (.sub rd rs1 rs2) := low_append _ _
theorem slli (rd rs1 : Reg) (shamt : BitVec 6) : Statement (.slli rd rs1 shamt) := low_append _ _
theorem addi (rd rs1 : Reg) (imm : BitVec 12) : Statement (.addi rd rs1 imm) := low_append _ _
theorem auipc (rd : Reg) (imm : BitVec 20) : Statement (.auipc rd imm) := low_append _ _
theorem lb (rd rs1 : Reg) (imm : BitVec 12) : Statement (.lb rd rs1 imm) := low_append _ _
theorem lw (rd rs1 : Reg) (imm : BitVec 12) : Statement (.lw rd rs1 imm) := low_append _ _
theorem jal (rd : Reg) (imm : BitVec 21) : Statement (.jal rd imm) := low_append _ _
theorem jalr (rd rs1 : Reg) (imm : BitVec 12) : Statement (.jalr rd rs1 imm) := low_append _ _
theorem bne (rs1 rs2 : Reg) (imm : BitVec 13) : Statement (.bne rs1 rs2 imm) := low_append _ _
theorem ecall : Statement .ecall := by unfold Statement; decide

end Sys2Proof.Laws.Opcode
end

