-- ==== Sys2Proof/Tests/Slice0.lean ====
section
/-! SUPPORT. The model's own tests: ill-formed terms, words written out from 30_encoding.md, one-step tests with the
expected results of 95_test_vectors.md (its row in each name's comment), and a witness for the hypotheses of each
obligation. -/

namespace Sys2Proof.Tests

open Sys2Proof Sys2Proof.Machine Sys2Proof.Laws

/-! ### Helpers -/

/-- A running engine with some registers set, in the conventions of 95_test_vectors.md but for what is given. -/
def engineAt (x : Xlen) (base size : Nat) (pc : Word) (buf : Memory) (regs : List (Reg × Word)) : State :=
  regs.foldl (fun s p => s.setX p.1 p.2)
    { State.init { Config.standard with xlen := x, base := base, size := size } with pc := pc, running := true, buf := buf }

/-- The engine of 95_test_vectors.md with a word at the pc. -/
def vec (w : Nat) (regs : List (Reg × Word)) (pc : Word := 0x1000) (buf : Memory := []) (x : Xlen := .rv64) : State :=
  (engineAt x 0 0x10000 pc buf regs).withFetchWord 32 w

/-- The next state of an outcome. -/
def next? : Host.Outcome State Fault Refusal → Option State
  | .next s => some s
  | _ => none

/-- What a test looks at after one step: a register, the pc and the halt record. -/
def look (r : Reg) (s : State) : Option (Word × Word × Halt) := (next? (step s)).map fun t => (t.x r, t.pc, t.halt)

/-! ### Well-formedness: one ill-formed term for each check -/

theorem test_wf_shamt_rv32 : (Instr.slli 1 2 32).wf .rv32 = false := by decide
theorem test_wf_shamt_rv64 : (Instr.slli 1 2 63).wf .rv64 = true := by decide
theorem test_wf_jal_odd : (Instr.jal 1 5).wf .rv64 = false := by decide
theorem test_wf_bne_odd : (Instr.bne 1 2 3).wf .rv64 = false := by decide

/-! ### Decoding: words written out from the encodings (95_test_vectors.md section 2) -/

theorem test_decode_add : decodeTableWord 32 0b00000000001100010000000010110011 = some (.add 1 2 3) := by decide
theorem test_decode_sub : decodeTableWord 32 0b01000000001100010000000010110011 = some (.sub 1 2 3) := by decide
theorem test_decode_slli : decodeTableWord 32 0x03F11093 = some (.slli 1 2 63) := by decide
theorem test_decode_addi : decodeTableWord 32 0x80010093 = some (.addi 1 2 (-2048)) := by decide
theorem test_decode_auipc : decodeTableWord 32 0x80000097 = some (.auipc 1 0x80000) := by decide
theorem test_decode_lb : decodeTableWord 32 0xFFF10083 = some (.lb 1 2 (-1)) := by decide
theorem test_decode_lw : decodeTableWord 32 0x00812083 = some (.lw 1 2 8) := by decide
theorem test_decode_jal : decodeTableWord 32 0x800FF06F = some (.jal 0 (-4096)) := by decide
theorem test_decode_jalr : decodeTableWord 32 0x001082E7 = some (.jalr 5 1 1) := by decide
theorem test_decode_bne : decodeTableWord 32 0xFE029CE3 = some (.bne 5 0 (-8)) := by decide
theorem test_decode_ecall : decodeTableWord 32 0x00000073 = some .ecall := by decide

/-- E3: SLLI with `word[25] = 1` is illegal at XLEN = 32 and a shift by 32 at XLEN = 64. -/
theorem test_decode_reserved_slli :
    decode { Config.standard with xlen := .rv32 } .four 0x02011093#32 = .illegal ∧
    decode Config.standard .four 0x02011093#32 = .op (.slli 1 2 32) := by decide

/-- E11 to E16: neighbours of the rows are no rows. -/
theorem test_decode_unimplemented :
    [0x00003003#32, 0x00004003, 0x00100073, 0x00000173, 0x0000000F, 0x42000033, 0x40001033].map
      (decode Config.standard .four) = List.replicate 7 .unimplemented := by decide

/-- E17 to E19. -/
theorem test_decode_default :
    decode Config.standard .four 0xFFFFFFFF#32 = .illegal ∧ decode Config.standard .two 0x0000#32 = .illegal ∧
    decode Config.standard .two 0x4501#32 = .unimplemented := by decide

/-- The encoder writes the words of C10 and C13. -/
theorem test_encode : encode (.bne 5 0 (-8)) = 0xFE029CE3#32 ∧ encode (.jal 0 (-4096)) = 0x800FF06F#32 := by decide

/-! ### One step (95_test_vectors.md sections 1 and 2) -/

/-- I3. -/
theorem test_add_wraps : look 1 (vec 0x003100B3 [(2, 0xFFFFFFFFFFFFFFFF), (3, 1)]) = some (0, 0x1004, .none) := by decide
/-- I4. -/
theorem test_add_source_is_destination :
    look 2 (vec 0x00210133 [(2, 0x4000000000000001)]) = some (0x8000000000000002, 0x1004, .none) := by decide
/-- I5. -/
theorem test_sub_borrows :
    look 1 (vec 0x403100B3 [(2, 5), (3, 7)]) = some (0xFFFFFFFFFFFFFFFE, 0x1004, .none) := by decide
/-- I11. -/
theorem test_slli_63 : look 1 (vec 0x03F11093 [(2, 3)]) = some (0x8000000000000000, 0x1004, .none) := by decide
/-- I25. -/
theorem test_slli_reserved_rv32 : look 1 (vec 0x02011093 [(2, 1)] (x := .rv32)) =
    some (0, 0x1000, .fault (.illegalInstruction 0x02011093 0x1000)) := by decide
/-- I15. -/
theorem test_addi_sign_extends : look 1 (vec 0x80010093 []) = some (0xFFFFFFFFFFFFF800, 0x1004, .none) := by decide
/-- I24. -/
theorem test_addi_wraps_rv32 : look 1 (vec 0x00110093 [(2, 0xFFFFFFFF)] (x := .rv32)) = some (0, 0x1004, .none) := by decide
/-- I21. -/
theorem test_auipc_sign_extends : look 1 (vec 0x80000097 []) = some (0xFFFFFFFF80001000, 0x1004, .none) := by decide
/-- I22. -/
theorem test_auipc_rv32 : look 1 (vec 0x80000097 [] (x := .rv32)) = some (0x80001000, 0x1004, .none) := by decide
/-- L2. -/
theorem test_lb_zero_extends :
    look 1 (vec 0xFFF10083 [(2, 0x3001)] (buf := [(0x3000, 0x80)])) = some (0x80, 0x1004, .none) := by decide
/-- L3. -/
theorem test_lb_faults : look 1 (vec 0x00010083 [(1, 0x55), (2, 0x10000)]) =
    some (0x55, 0x1000, .fault (.loadAddressFault 0x10000)) := by decide
/-- L7. -/
theorem test_lw_little_endian :
    look 1 (vec 0x00812083 [(2, 0x3000)] (buf := [(0x3008, 8), (0x3009, 7), (0x300A, 6), (0x300B, 5), (0x300C, 4),
      (0x300D, 3), (0x300E, 2), (0x300F, 1)])) = some (0x0102030405060708, 0x1004, .none) := by decide
/-- L11. -/
theorem test_lw_alignment_first :
    look 1 (vec 0x00012083 [(2, 0x10004)]) = some (0, 0x1000, .fault (.unalignedAccess 0x10004)) := by decide
/-- C1, S8. -/
theorem test_jal_links : look 1 (vec 0x100000EF [] (pc := 0x2000)) = some (0x2004, 0x2100, .none) := by decide
/-- C13. -/
theorem test_jal_wraps : look 0 (vec 0x800FF06F [] (pc := 0)) = some (0, 0xFFFFFFFFFFFFF000, .none) := by decide
/-- C4. -/
theorem test_jalr_source_is_destination :
    look 1 (vec 0x000080E7 [(1, 0x2000)]) = some (0x1004, 0x2000, .none) := by decide
/-- C6. -/
theorem test_jalr_keeps_bit_0 : look 5 (vec 0x001082E7 [(1, 0x2000)]) = some (0x1004, 0x2001, .none) := by decide
/-- C8. -/
theorem test_bne_not_taken : look 0 (vec 0x00209863 [(1, 5), (2, 5)]) = some (0, 0x1004, .none) := by decide
/-- C12. -/
theorem test_bne_full_width :
    look 0 (vec 0x00209863 [(1, 0xFFFFFFFFFFFFFFFF), (2, 0xFFFFFFFF)]) = some (0, 0x1010, .none) := by decide
/-- Y1 (S9) and Y5. -/
theorem test_ecall_write :
    (next? (step (vec 0x73 [(10, 1), (11, 0x3000), (12, 2), (17, 64)] (buf := [(0x3000, 0x68), (0x3001, 0x69)])))).map
      (fun t => (t.x 10, t.pc, t.log)) =
      some (0, 0x1004, [.syscallTrace 64 #v[1, 0x3000, 2, 0, 0, 0, 0], .writeOut 1 [0x68, 0x69]]) ∧
    look 10 (vec 0x73 [(10, 1), (11, 0x3000), (12, 0xFFFFFFFFFFFFFFFF), (17, 64)]) =
      some (1, 0x1000, .fault (.loadAddressFault 0x2FFF)) := by decide
/-- Y8 and Y11. -/
theorem test_ecall_exit_and_other :
    (next? (step (vec 0x73 [(11, 5), (17, 93)]))).map (fun t => (t.running, t.halt, t.pc, t.log)) =
      some (false, .exit, 0x1004, [.syscallTrace 93 #v[0, 5, 0, 0, 0, 0, 0], .exitDiag 0 false]) ∧
    look 10 (vec 0x73 [(10, 3), (17, 0xFFFFFFFF)] (x := .rv32)) = some (3, 0x1004, .none) := by decide

/-- T1, T2 and T17. -/
theorem test_fetch_faults :
    look 0 (engineAt .rv64 0 0x10000 0x1001 [] []) = some (0, 0x1001, .fault (.unalignedAccess 0x1001)) ∧
    look 0 (engineAt .rv64 0 0x10000 0x10000 [] []) = some (0, 0x10000, .fault (.loadAddressFault 0x10000)) ∧
    look 0 (engineAt .rv64 0 0x10000 0xFFFFFFFFFFFFFFFE [] []) =
      some (0, 0xFFFFFFFFFFFFFFFE, .fault (.loadAddressFault 0xFFFFFFFFFFFFFFFE)) := by decide
/-- T4 and T6. -/
theorem test_page_check :
    look 0 (engineAt .rv64 0 0x10000 0x1FFE [(0x1FFE, 0x13)] []) =
      some (0, 0x1FFE, .fault (.illegalInstruction 0x13 0x1FFE)) ∧
    look 0 (engineAt .rv64 0 0x10000 0x1FFE [(0x1FFE, 0x01), (0x1FFF, 0x45)] []) =
      some (0, 0x1FFE, .unimplemented 0x4501 0x1FFE) := by decide
/-- T7 and T8: the page offset counts from BASE. -/
theorem test_page_check_base :
    look 0 (engineAt .rv64 0x100 0x2000 0x10FE [(0xFFE, 0x13)] []) =
      some (0, 0x10FE, .fault (.illegalInstruction 0x13 0x10FE)) ∧
    look 0 (engineAt .rv64 0x100 0x2000 0xFFE [(0xEFE, 0x13)] []) = some (0, 0x1002, .none) := by decide
/-- T9. -/
theorem test_second_parcel_fault :
    look 0 (engineAt .rv64 0 0x1002 0x1000 [(0x1000, 0x13)] []) =
      some (0, 0x1000, .fault (.loadAddressFault 0x1002)) := by decide
/-- T10: no trace event for an illegal instruction. -/
theorem test_illegal_has_no_trace :
    (next? (step { vec 0xFFFFFFFF [] with debug := true })).map (·.log) =
      some [.haltReport (.fault (.illegalInstruction 0xFFFFFFFF 0x1000))] := by decide
/-- T12, T15: the trace comes before the unimplemented outcome and its report. -/
theorem test_unimplemented_trace :
    (next? (step { vec 0x000010B7 [] with debug := true })).map (fun t => (t.running, t.pc, t.log)) =
      some (false, 0x1000, [.instrTrace 0x1000 .four 0x10B7, .haltReport (.unimplemented 0x10B7 0x1000)]) := by decide

/-- S5, B18: the image stands at BASE. -/
theorem test_init_from :
    (next? (initFrom [0xAA, 0xBB] (State.init { Config.standard with base := 0x8000, size := 0x100 }))).map
      (fun t => (t.buf, t.byteAt 0x8000, t.byteAt 0x8001)) = some ([(0, 0xAA), (1, 0xBB)], some 0xAA, some 0xBB) := by
  decide

/-- B12 and B17a: the end boundary is checked before it is cut to XLEN bits. -/
theorem test_byte_range_end :
    (engineAt .rv64 0x8000 0x100 0 [] []).readBytes 0x80FE 2 = .error (.loadAddressFault 0x8100) ∧
    (engineAt .rv64 0xFFFFFFFFFFFFFF00 0x100 0 [] []).readBytes 0xFFFFFFFFFFFFFFF0 0x10 =
      .error (.loadAddressFault 0) := by exact ⟨rfl, rfl⟩

/-- Reset is idle with nothing listed, and its first step is the host's `run`. -/
theorem test_reset : Memory.wf State.reset.buf ∧ State.reset.phase = .idle ∧ State.reset.pc = 0 ∧
    (next? (step State.reset)).map (·.phase) = some .running := by decide

/-- The words of the assembler table: C10, I21 (30_encoding.md R120). -/
theorem test_asm : Machine.Instr.asm (.bne 5 0 (-8)) = "bne t0, zero, -8" ∧
    Machine.Instr.asm (.auipc 1 0x80000) = "auipc ra, 524288" := by decide

/-! ### Witnesses: a state and operands that meet the hypotheses of each obligation, each clause at a boundary -/

/-- The invariant of a state whose log is empty and that has not halted is a decidable fact about its data. -/
theorem inv_of_data (s : State) (h : s.cfg.wf ∧ Memory.wf s.buf ∧ (∀ c ∈ s.buf, c.1 < s.cfg.size) ∧
    (∀ r, fits s.cfg.xlen (s.x r)) ∧ (∀ r, fits s.cfg.xlen (s.f r)) ∧ fits s.cfg.xlen s.pc ∧ s.halt = .none ∧
    s.log = []) : s.Inv := by
  obtain ⟨h1, h2, h3, h4, h5, h6, h7, h8⟩ := h
  exact ⟨h1, h2, h3, h4, h5, h6, by rw [h7]; trivial, by simp [h8], fun _ => h7⟩

/-- The running engine of I2 meets the invariant. -/
def demo : State := vec 0x003100B3 [(2, 5), (3, 7)]
theorem demo_inv : demo.Inv := inv_of_data _ (by decide)

/-- An idle engine of two bytes. -/
def tiny : State := State.init { Config.standard with base := 0x100, size := 2 }
theorem tiny_inv : tiny.Inv := inv_of_data _ (by decide)

/-- The engine of T9, whose range ends inside the instruction. -/
def cut : State := engineAt .rv64 0 0x1002 0x1000 [(0x1000, 0x13)] []
theorem cut_inv : cut.Inv := inv_of_data _ (by decide)

/-- A running engine whose pc is odd (T1). -/
def odd : State := engineAt .rv64 0 0x10000 0x1001 [] []
theorem odd_inv : odd.Inv := inv_of_data _ (by decide)

/-- The engine of Y7, about to exit. -/
def exiting : State := vec 0x73 [(10, 7), (17, 93)]
theorem exiting_inv : exiting.Inv := inv_of_data _ (by decide)

/-- The engine of T16, in its self loop. -/
def looping : State := vec 0x6F []
theorem looping_inv : looping.Inv := inv_of_data _ (by decide)

theorem witness_ConstructionState :
    Config.standard.wf ∧ ({ Config.standard with size := 2 ^ 64 } : Config).wf ∧
    ({ Config.standard with base := 2 ^ 64 - 1, size := 1 } : Config).wf := by decide

theorem witness_ConstructionRefusal :
    ¬(({ Config.standard with base := 2 ^ 64 - 1, size := 1 } : Config).size = 0 ∨
      2 ^ Xlen.rv64.bits < (2 ^ 64 - 1) + ({ Config.standard with base := 2 ^ 64 - 1, size := 1 } : Config).size) := by
  decide

theorem witness_InitFromPlacesImage :
    (tiny.Inv ∧ tiny.phase = .idle ∧ [0xAA#8, 0xBB].length ≤ tiny.cfg.size) ∧
    (tiny.Inv ∧ tiny.phase = .idle ∧ tiny.cfg.size < [1#8, 2, 3].length) ∧ (demo.Inv ∧ demo.phase ≠ .idle) :=
  ⟨⟨tiny_inv, by decide, by decide⟩, ⟨tiny_inv, by decide, by decide⟩, demo_inv, by decide⟩

theorem witness_BootSequence : tiny.cfg.wf ∧ [0xAA#8, 0xBB].length ≤ tiny.cfg.size := by decide

theorem witness_RegisterFile : (31 : Reg) ≠ 0 ∧ (0 : Reg) ≠ 31 := by decide

theorem witness_FloatRegisterFile : (31 : FReg) ≠ 0 := by decide

theorem witness_AlignmentFirst :
    (0xFFFFFFFFFFFFFFFF#64).toNat % Width.w8.bytes ≠ 0 ∧ (0xFFFFFFFFFFFFFFF8#64).toNat % Width.w8.bytes = 0 := by decide

theorem witness_ScalarBoundsFault :
    ((0xFE#64).toNat % Width.w2.bytes = 0 ∧ (0xFE#64).toNat < tiny.cfg.base) ∧
    ((0x100#64).toNat % Width.w4.bytes = 0 ∧ tiny.cfg.top < (0x100#64).toNat + Width.w4.bytes - 1) := by decide

theorem witness_ScalarLoadLittleEndian :
    (0x100#64).toNat % Width.w2.bytes = 0 ∧ tiny.cfg.base ≤ (0x100#64).toNat ∧
    (0x100#64).toNat + Width.w2.bytes - 1 ≤ tiny.cfg.top := by decide

theorem witness_ScalarStoreThenLoad :
    tiny.Inv ∧ (0x100#64).toNat % Width.w2.bytes = 0 ∧ tiny.cfg.base ≤ (0x100#64).toNat ∧
    (0x100#64).toNat + Width.w2.bytes - 1 ≤ tiny.cfg.top := ⟨tiny_inv, by decide⟩

theorem witness_ByteRangeRead :
    ¬(tiny.cfg.base ≤ (0x102#64).toNat ∧ (0x102#64).toNat ≤ tiny.cfg.top) ∧
    (tiny.cfg.base ≤ (0x100#64).toNat ∧ (0x100#64).toNat ≤ tiny.cfg.top ∧ tiny.cfg.top < (0x100#64).toNat + 2) ∧
    (tiny.cfg.base ≤ (0x100#64).toNat ∧ (0x100#64).toNat + 1 ≤ tiny.cfg.top) := by decide

theorem witness_ByteRangeWrite : tiny.Inv ∧
    ¬(tiny.cfg.base ≤ (0xFF#64).toNat ∧ (0xFF#64).toNat ≤ tiny.cfg.top) ∧
    (tiny.cfg.base ≤ (0x101#64).toNat ∧ (0x101#64).toNat ≤ tiny.cfg.top ∧
      tiny.cfg.top < (0x101#64).toNat + [1#8].length) ∧
    (tiny.cfg.base ≤ (0x100#64).toNat ∧ (0x100#64).toNat + [1#8].length ≤ tiny.cfg.top) := ⟨tiny_inv, by decide⟩

theorem witness_ByteRangeEmpty :
    (tiny.cfg.base ≤ (0x101#64).toNat ∧ (0x101#64).toNat ≤ tiny.cfg.top) ∧
    ¬(tiny.cfg.base ≤ (0x102#64).toNat ∧ (0x102#64).toNat ≤ tiny.cfg.top) := by decide

theorem witness_LengthRule : (0x0013#16).toNat % 4 = 3 ∧ (0x4502#16).toNat % 4 ≠ 3 := by decide

theorem witness_DecodeEncode :
    Instr.wf .rv64 (.slli 31 31 63) = true ∧ Instr.wf .rv32 (.slli 1 2 31) = true ∧
    Instr.wf .rv64 (.jal 31 (-1048576)) = true ∧ Instr.wf .rv32 (.bne 31 31 (-4096)) = true := by decide

theorem witness_EncodeDecode : decode demo.cfg .four 0x003100B3#32 = .op (.add 1 2 3) := by decide

theorem witness_DecodeOther :
    Classify.standard.verdict .two 0 = .illegal ∧ Classify.standard.verdict .two 1 = .unimplemented ∧
    (Xlen.rv32 = .rv32 ∧ 0x02011093#32 &&& 0xFE00707F#32 = 0x02001013#32) ∧
    Classify.standard.verdict .four 0xFFFFFFFF = .illegal ∧ Classify.standard.verdict .four 0x23 = .unimplemented := by
  decide

/-- No instruction encodes to a word whose opcode no row has. -/
theorem witness_DecodeOther_no_row : ∀ i : Instr, i.wf .rv64 = true → encode i ≠ 0xFFFFFFFF#32 := by
  intro i _ h
  have ho : Opcode.Statement i := by
    cases i
    exacts [Opcode.add _ _ _, Opcode.sub _ _ _, Opcode.slli _ _ _, Opcode.addi _ _ _, Opcode.auipc _ _, Opcode.lb _ _ _,
      Opcode.lw _ _ _, Opcode.jal _ _, Opcode.jalr _ _ _, Opcode.bne _ _ _, Opcode.ecall]
  unfold Opcode.Statement at ho
  rw [h] at ho
  cases i <;> simp only [Opcode.column] at ho <;> exact absurd ho (by decide)

theorem witness_StepRunsDecoded :
    demo.phase = .running ∧ demo.fetch = .ok { len := .four, bits := 0x003100B3 } ∧
    decode demo.cfg .four 0x003100B3 = .op (.add 1 2 3) := ⟨rfl, rfl, by decide⟩

theorem witness_StepRunsEncodedBytes :
    demo.Inv ∧ demo.phase = .running ∧ Instr.wf demo.cfg.xlen (.add 1 2 3) = true ∧ demo.pc.toNat % 2 = 0 ∧
    demo.cfg.base ≤ demo.pc.toNat ∧ demo.pc.toNat + 3 ≤ demo.cfg.top ∧
    (demo.pc.toNat - demo.cfg.base) % 4096 ≠ 4094 ∧
    ∀ k, k < 4 → demo.byteAt (demo.pc.toNat + k) = (encodeBytes (.add 1 2 3))[k]? :=
  ⟨demo_inv, by decide, by decide, by decide, by decide, by decide, by decide, by decide⟩

theorem witness_FetchFirstParcel :
    (odd.phase = .running ∧ odd.pc.toNat % 2 = 1) ∧
    (∃ s : State, s.phase = .running ∧ s.pc.toNat % 2 = 0 ∧ s.cfg.top < s.pc.toNat + 1) ∧
    (demo.phase = .running ∧ demo.pc.toNat % 2 = 0 ∧ demo.cfg.base ≤ demo.pc.toNat ∧ demo.pc.toNat + 1 ≤ demo.cfg.top) :=
  ⟨by decide, ⟨engineAt .rv64 0 1 0 [] [], by decide⟩, by decide⟩

/-- T7, T6, and a 2-byte parcel in the last two bytes of the range, under each verdict. -/
theorem witness_PageCheck :
    (∃ s : State, s.phase = .running ∧ s.pc.toNat % 2 = 0 ∧ s.byteAt s.pc.toNat = some 0x13 ∧
      s.byteAt (s.pc.toNat + 1) = some 0 ∧ (0x13#8).toNat % 4 = 3 ∧ (s.pc.toNat - s.cfg.base) % 4096 = 4094) ∧
    (∃ s : State, s.phase = .running ∧ s.pc.toNat % 2 = 0 ∧ s.byteAt s.pc.toNat = some 1 ∧
      s.byteAt (s.pc.toNat + 1) = some 0x45 ∧ (1#8).toNat % 4 ≠ 3 ∧ (s.pc.toNat - s.cfg.base) % 4096 = 4094 ∧
      s.cfg.classify.verdict .two 0x4501 = .unimplemented) ∧
    (∃ s : State, s.phase = .running ∧ s.pc.toNat % 2 = 0 ∧ s.byteAt s.pc.toNat = some 0 ∧
      s.byteAt (s.pc.toNat + 1) = some 0 ∧ (0#8).toNat % 4 ≠ 3 ∧ s.pc.toNat + 1 = s.cfg.top ∧
      s.cfg.classify.verdict .two 0 = .illegal) :=
  ⟨⟨engineAt .rv64 0x100 0x2000 0x10FE [(0xFFE, 0x13)] [], by decide⟩,
   ⟨engineAt .rv64 0 0x10000 0x1FFE [(0x1FFE, 0x01), (0x1FFF, 0x45)] [], by decide⟩,
   ⟨engineAt .rv64 0x100 2 0x100 [] [], by decide⟩⟩

theorem witness_FetchSecondParcel :
    (cut.Inv ∧ cut.phase = .running ∧ cut.pc.toNat % 2 = 0 ∧ cut.byteAt cut.pc.toNat = some 0x13 ∧
      cut.byteAt (cut.pc.toNat + 1) = some 0 ∧ (0x13#8).toNat % 4 = 3 ∧ (cut.pc.toNat - cut.cfg.base) % 4096 ≠ 4094 ∧
      cut.cfg.top < cut.pc.toNat + 3) ∧
    (demo.Inv ∧ demo.phase = .running ∧ demo.pc.toNat % 2 = 0 ∧ demo.byteAt demo.pc.toNat = some 0xB3 ∧
      demo.byteAt (demo.pc.toNat + 1) = some 0 ∧ (0xB3#8).toNat % 4 = 3 ∧
      (demo.pc.toNat - demo.cfg.base) % 4096 ≠ 4094 ∧ demo.pc.toNat + 3 ≤ demo.cfg.top) :=
  ⟨⟨cut_inv, by decide⟩, demo_inv, by decide⟩

theorem witness_IllegalHalts : ∃ s d, State.phase s = .running ∧ s.fetch = .ok d ∧ decode s.cfg d.len d.bits = .illegal :=
  ⟨vec 0xFFFFFFFF [], ⟨.four, 0xFFFFFFFF⟩, rfl, rfl, by decide⟩

theorem witness_UnimplementedHalts :
    ∃ s d, State.phase s = .running ∧ s.fetch = .ok d ∧ decode s.cfg d.len d.bits = .unimplemented :=
  ⟨vec 0x23 [], ⟨.four, 0x23⟩, rfl, rfl, by decide⟩

theorem witness_TraceEvent :
    ∃ s d, State.phase s = .running ∧ s.debug = true ∧ s.fetch = .ok d ∧ decode s.cfg d.len d.bits ≠ .illegal :=
  ⟨{ demo with debug := true }, ⟨.four, 0x003100B3⟩, rfl, rfl, rfl, by decide⟩

theorem witness_AddRule : 0x003100B3#32 &&& 0xFE00707F#32 = 0x00000033#32 ∧ (1 : Reg) ≠ 0 := by decide
theorem witness_SubRule : 0x403100B3#32 &&& 0xFE00707F#32 = 0x40000033#32 ∧ (1 : Reg) ≠ 0 := by decide
theorem witness_SlliRule :
    0x03F11093#32 &&& 0xFC00707F#32 = 0x00001013#32 ∧ 0x01F11093#32 &&& 0xFE00707F#32 = 0x00001013#32 ∧
    (0x02011093#32 &&& 0xFC00707F#32 = 0x00001013#32 ∧ (0x02011093#32).getLsbD 25 = true) ∧ (1 : Reg) ≠ 0 := by decide
theorem witness_AddiRule : 0x80010093#32 &&& 0x0000707F#32 = 0x00000013#32 ∧ (1 : Reg) ≠ 0 := by decide
theorem witness_AuipcRule : 0x80000097#32 &&& 0x0000007F#32 = 0x00000017#32 ∧ (1 : Reg) ≠ 0 := by decide

/-- L5 at `TOP`, and L3 just past it. -/
theorem witness_LbRule :
    0x00010083#32 &&& 0x0000707F#32 = 0x00000003#32 ∧
    (∃ s : State, (0xFFFF : Int) = (((s.x 2).toNat : Int) + (0#12).toInt) % (s.modulus : Int) ∧
      s.cfg.base ≤ 0xFFFF ∧ 0xFFFF ≤ s.cfg.top) ∧
    (∃ s : State, (0x10000 : Int) = (((s.x 2).toNat : Int) + (0#12).toInt) % (s.modulus : Int) ∧
      ¬(s.cfg.base ≤ 0x10000 ∧ 0x10000 ≤ s.cfg.top)) :=
  ⟨by decide, ⟨vec 0x00010083 [(2, 0xFFFF)], by decide⟩, ⟨vec 0x00010083 [(2, 0x10000)], by decide⟩⟩

/-- L9 with its last byte at `TOP`, L14, and L10. -/
theorem witness_LwRule :
    0x00012083#32 &&& 0x0000707F#32 = 0x00002003#32 ∧
    (∃ s : State, (0xFFF8 : Int) = (((s.x 2).toNat : Int) + (0#12).toInt) % (s.modulus : Int) ∧
      0xFFF8 % (s.cfg.xlen.bits / 8) = 0 ∧ s.cfg.base ≤ 0xFFF8 ∧ 0xFFF8 + s.cfg.xlen.bits / 8 - 1 ≤ s.cfg.top) ∧
    (∃ s : State, (0x3004 : Int) = (((s.x 2).toNat : Int) + (0#12).toInt) % (s.modulus : Int) ∧
      0x3004 % (s.cfg.xlen.bits / 8) ≠ 0) ∧
    (∃ s : State, (0x10000 : Int) = (((s.x 2).toNat : Int) + (0#12).toInt) % (s.modulus : Int) ∧
      0x10000 % (s.cfg.xlen.bits / 8) = 0 ∧ s.cfg.top < 0x10000 + s.cfg.xlen.bits / 8 - 1) :=
  ⟨by decide, ⟨vec 0x00012083 [(2, 0xFFF8)], by decide⟩, ⟨vec 0x00012083 [(2, 0x3004)], by decide⟩,
   ⟨vec 0x00012083 [(2, 0x10000)], by decide⟩⟩

theorem witness_JalRule : 0x800FF06F#32 &&& 0x0000007F#32 = 0x0000006F#32 ∧ (1 : Reg) ≠ 0 := by decide
theorem witness_JalrRule : 0x001082E7#32 &&& 0x0000707F#32 = 0x00000067#32 ∧ (5 : Reg) ≠ 0 := by decide
theorem witness_BneRule :
    0xFE029CE3#32 &&& 0x0000707F#32 = 0x00001063#32 ∧ demo.x 2 ≠ demo.x 3 ∧ demo.x 2 = demo.x 2 := by decide

/-- The longest span that ends at `TOP`, Y3 and Y4. -/
theorem witness_EcallWrite :
    (∃ s : State, (s.x 17).toNat = 64 ∧ s.cfg.base ≤ (s.x 11).toNat ∧
      (s.x 11).toNat + (s.x 12).toNat = s.cfg.top) ∧
    (∃ s : State, (s.x 17).toNat = 64 ∧ ¬(s.cfg.base ≤ (s.x 11).toNat ∧ (s.x 11).toNat ≤ s.cfg.top)) ∧
    (∃ s : State, (s.x 17).toNat = 64 ∧ s.cfg.base ≤ (s.x 11).toNat ∧ (s.x 11).toNat ≤ s.cfg.top ∧
      s.cfg.top < (s.x 11).toNat + (s.x 12).toNat) :=
  ⟨⟨vec 0x73 [(11, 0xFFFD), (12, 2), (17, 64)], by decide⟩, ⟨vec 0x73 [(11, 0x20000), (12, 2), (17, 64)], by decide⟩,
   ⟨vec 0x73 [(11, 0xFFFE), (12, 2), (17, 64)], by decide⟩⟩

theorem witness_EcallExit : (exiting.x 17).toNat = 93 := by decide
/-- The numbers beside 64 and 93, and `exit_group`. -/
theorem witness_EcallOther : ∃ s₁ s₂ s₃ s₄ : State, (s₁.x 17).toNat = 63 ∧ (s₂.x 17).toNat = 65 ∧
    (s₃.x 17).toNat = 92 ∧ (s₄.x 17).toNat = 94 :=
  ⟨demo.setX 17 63, demo.setX 17 65, demo.setX 17 92, demo.setX 17 94, by decide, by decide, by decide, by decide⟩

theorem witness_StepInv : ∃ t, demo.Inv ∧ step demo = .next t := ⟨_, demo_inv, rfl⟩

theorem witness_FaultsArePrecise :
    ∃ t f, odd.Inv ∧ odd.phase = .running ∧ step odd = .next t ∧ t.halt = .fault f ∧ odd.halt ≠ .fault f :=
  ⟨_, _, odd_inv, by decide, rfl, rfl, by decide⟩

/-- The three fault kinds a step delivers. -/
theorem witness_DeliveredFaults :
    (∃ t f, odd.phase = .running ∧ step odd = .next t ∧ t.halt = .fault f ∧ odd.halt ≠ .fault f ∧ f.code = 3) ∧
    (∃ t f, cut.phase = .running ∧ step cut = .next t ∧ t.halt = .fault f ∧ cut.halt ≠ .fault f ∧ f.code = 1) ∧
    (∃ s t f, State.phase s = .running ∧ step s = .next t ∧ t.halt = .fault f ∧ s.halt ≠ .fault f ∧ f.code = 5) :=
  ⟨⟨_, .unalignedAccess 0x1001, by decide, rfl, rfl, by decide, rfl⟩,
   ⟨_, .loadAddressFault 0x1002, by decide, rfl, rfl, by decide, rfl⟩,
   ⟨vec 0xFFFFFFFF [], _, .illegalInstruction 0xFFFFFFFF 0x1000, by decide, rfl, rfl, by decide, rfl⟩⟩

theorem witness_StepKeeps : ∃ t, step demo = .next t := ⟨_, rfl⟩
theorem witness_LogAppendOnly : ∃ t, step exiting = .next t ∧ t.log ≠ exiting.log := ⟨_, rfl, by decide⟩
theorem witness_RegisterWriters : ∃ t, step demo = .next t ∧ t.x 1 ≠ demo.x 1 := ⟨_, rfl, by decide⟩

/-- One state for each phase. -/
theorem witness_PhaseTransitions :
    (∃ t, tiny.Inv ∧ step tiny = .next t ∧ tiny.phase = .idle) ∧
    (∃ t, demo.Inv ∧ step demo = .next t ∧ demo.phase = .running) ∧
    (∃ s t, State.Inv s ∧ step s = .next t ∧ s.phase = .halted) :=
  ⟨⟨_, tiny_inv, rfl, by decide⟩, ⟨_, demo_inv, rfl, by decide⟩,
   ⟨{ tiny with halt := .exit }, _,
    { range := tiny_inv.range, bufWf := tiny_inv.bufWf, bufInside := tiny_inv.bufInside, gprFits := tiny_inv.gprFits,
      fprFits := tiny_inv.fprFits, pcFits := tiny_inv.pcFits, haltOk := trivial, logOk := tiny_inv.logOk,
      runningNone := by intro h; cases h }, rfl, by decide⟩⟩

theorem witness_ExitOnlyByEcall :
    ∃ t, exiting.Inv ∧ exiting.phase = .running ∧ step exiting = .next t ∧ t.halt = .exit :=
  ⟨_, exiting_inv, by decide, rfl, rfl⟩

theorem witness_HaltIsPermanent : State.phase { tiny with halt := .exit } = .halted := by decide

theorem witness_GenericPostIncrement : ∃ t, demo.Inv ∧ demo.phase = .running ∧
    demo.fetch = .ok { len := .four, bits := 0x003100B3 } ∧ decode demo.cfg .four 0x003100B3 = .op (.add 1 2 3) ∧
    step demo = .next t ∧ (∀ f, t.halt ≠ .fault f) ∧ (∀ rd imm, Instr.add 1 2 3 ≠ .jal rd imm) ∧
    (∀ rd rs1 imm, Instr.add 1 2 3 ≠ .jalr rd rs1 imm) ∧ (∀ rs1 rs2 imm, Instr.add 1 2 3 ≠ .bne rs1 rs2 imm) :=
  ⟨_, demo_inv, by decide, rfl, by decide, rfl, (by intro f h; cases h), (by simp), (by simp), by simp⟩

/-- C6. -/
theorem witness_OnlyJalrMakesPcOdd : ∃ s t d i, State.phase s = .running ∧ s.fetch = .ok d ∧
    decode s.cfg d.len d.bits = .op i ∧ step s = .next t ∧ t.pc.toNat % 2 = 1 :=
  ⟨vec 0x001082E7 [(1, 0x2000)], _, ⟨.four, 0x001082E7⟩, .jalr 5 1 1, by decide, rfl, by decide, rfl, by decide⟩

theorem witness_DiagnosticsUnobservable :
    SameGuestView demo { demo with debug := true, fpr := Vector.replicate 32 1 } ∧
    ({ demo with debug := true, fpr := Vector.replicate 32 1 } : State) ≠ demo :=
  ⟨⟨rfl, rfl, rfl, rfl, rfl, rfl⟩, by decide⟩

/-- With the debug flag clear, and set. -/
theorem witness_SelfLoopNeverEnds :
    (looping.Inv ∧ looping.phase = .running ∧ looping.fetch = .ok { len := .four, bits := 0x0000006F#32 }) ∧
    (∃ s : State, s.Inv ∧ s.phase = .running ∧ s.debug = true ∧
      s.fetch = .ok { len := .four, bits := 0x0000006F#32 }) :=
  ⟨⟨looping_inv, by decide, rfl⟩, ⟨{ looping with debug := true }, inv_of_data _ (by decide), by decide, rfl, rfl⟩⟩

/-- Below and at the offset where the split of R121 overflows. -/
theorem witness_PcRelativePseudos :
    ¬(2 ^ 31 - 2 ^ 11 ≤ (0x7FFFF7FF#32).toInt) ∧ 2 ^ 31 - 2 ^ 11 ≤ (0x7FFFF800#32).toInt ∧
    (1 : Reg) ≠ 0 ∧ (0 : Reg) = 0 := by decide

theorem witness_HostEntryPoints :
    tiny.phase = .idle ∧ demo.phase ≠ .idle ∧ State.phase { tiny with halt := .exit } ≠ .idle := by decide

end Sys2Proof.Tests
end

section
/-! SUPPORT. The register file (10_state.md R21, R22). -/

namespace Sys2Proof.Proofs

open Sys2Proof.Machine

/-- A written register reads back the value's residue modulo 2^XLEN (10_state.md R22, 00_scope.md R14). -/
theorem toNat_setX_x_same (s : State) {r : Reg} (h : r ≠ 0) (v : Word) :
    ((s.setX r v).x r).toNat = v.toNat % s.modulus := by
  rw [setX_x_same s h, toNat_trunc]
  rfl

/-- Settles O5: the read-after-write rules of the register file, one for each part of the statement. -/
theorem registerFile : Obligations.RegisterFile := by
  intro s r q v
  exact ⟨x_zero s, setX_zero s v, fun hr => toNat_setX_x_same s hr v, fun hq => setX_x_ne s hq v⟩

end Sys2Proof.Proofs
end

section
/-! SUPPORT. The order of the checks of a scalar access (20_memory.md R57). -/

namespace Sys2Proof.Proofs

open Sys2Proof.Machine

theorem memWrite_misaligned {s : State} {a : Word} {w : Width} (v : BitVec (8 * w.bytes)) (h : a.toNat % w.bytes ≠ 0) :
    s.memWrite a w v = .error (.unalignedAccess a) := by
  rw [State.memWrite, scalarCheck_misaligned _ h]

theorem memWrite_out {s : State} {a : Word} {w : Width} (v : BitVec (8 * w.bytes)) (h : a.toNat % w.bytes = 0)
    (ho : a.toNat < s.cfg.base ∨ s.cfg.top < a.toNat + w.bytes - 1) :
    s.memWrite a w v = .error (.storeAddressFault a) := by
  rw [State.memWrite, scalarCheck_out _ h ho]

/-- Everything a scalar store can do: the twin of `memRead_cases` in the store direction (20_memory.md R56). -/
theorem memWrite_cases (s : State) (a : Word) (w : Width) (v : BitVec (8 * w.bytes)) :
    (a.toNat % w.bytes ≠ 0 ∧ s.memWrite a w v = .error (.unalignedAccess a)) ∨
    (a.toNat % w.bytes = 0 ∧ (a.toNat < s.cfg.base ∨ s.cfg.top < a.toNat + w.bytes - 1) ∧
      s.memWrite a w v = .error (.storeAddressFault a)) ∨
    (a.toNat % w.bytes = 0 ∧ s.cfg.base ≤ a.toNat ∧ a.toNat + w.bytes - 1 ≤ s.cfg.top ∧
      s.memWrite a w v = .ok { s with buf := s.buf.writeList (a.toNat - s.cfg.base) (leBytes w.bytes v) }) := by
  by_cases h : a.toNat % w.bytes = 0
  · by_cases ho : a.toNat < s.cfg.base ∨ s.cfg.top < a.toNat + w.bytes - 1
    · exact .inr (.inl ⟨h, ho, memWrite_out v h ho⟩)
    · push Not at ho
      exact .inr (.inr ⟨h, ho.1, ho.2, memWrite_in v h ho.1 ho.2⟩)
  · exact .inl ⟨h, memWrite_misaligned v h⟩

/-- An aligned load can fail only with its address fault, whatever address `b` an alignment fault would carry. -/
theorem memRead_ne_unaligned_of_aligned {s : State} {a : Word} {w : Width} (h : a.toNat % w.bytes = 0) (b : Word) :
    s.memRead a w ≠ .error (.unalignedAccess b) := by
  rcases memRead_cases s a w with ⟨hm, _⟩ | ⟨_, _, hfault⟩ | ⟨_, _, _, hok⟩
  · exact absurd h hm
  · simp [hfault]
  · simp [hok]

/-- An aligned store can fail only with its address fault, whatever address `b` an alignment fault would carry. -/
theorem memWrite_ne_unaligned_of_aligned {s : State} {a : Word} {w : Width} (v : BitVec (8 * w.bytes))
    (h : a.toNat % w.bytes = 0) (b : Word) : s.memWrite a w v ≠ .error (.unalignedAccess b) := by
  rcases memWrite_cases s a w v with ⟨hm, _⟩ | ⟨_, _, hfault⟩ | ⟨_, _, _, hok⟩
  · exact absurd h hm
  · simp [hfault]
  · simp [hok]

/-- Settles O7: the misaligned and the aligned rule of each direction; every address is a multiple of one byte. -/
theorem alignmentFirst : Obligations.AlignmentFirst := by
  intro s a w v b
  exact ⟨fun hm => ⟨memRead_misaligned hm, memWrite_misaligned v hm⟩,
    fun ha => ⟨memRead_ne_unaligned_of_aligned ha b, memWrite_ne_unaligned_of_aligned v ha b⟩, Nat.mod_one _⟩

end Sys2Proof.Proofs
end

section
/-! SUPPORT. The length that the first parcel gives an instruction (30_encoding.md R90). -/

namespace Sys2Proof.Proofs

open Sys2Proof.Laws

/-- The twin of `two_low_bits` for the compressed length: the two lengths are the only ones (30_encoding.md R92). -/
theorem lenOf_eq_two_iff (lo : BitVec 16) : lenOf lo = .two ↔ lo.toNat % 4 ≠ 3 := by
  rw [Ne, ← two_low_bits]
  cases lenOf lo <;> decide

/-- Settles O14: one length test for each of the two lengths. -/
theorem lengthRule : Obligations.LengthRule := by
  intro lo
  exact ⟨(two_low_bits lo).mpr, (lenOf_eq_two_iff lo).mpr⟩

end Sys2Proof.Proofs
end

section
/-! SUPPORT. The syscall trace that every ECALL emits before its dispatch (44_system_syscall.md R203). -/

namespace Sys2Proof.Proofs

open Sys2Proof.Machine

/-- The trace carries `a7` and then `a0` to `a6` (44_system_syscall.md R202). -/
@[simp] theorem traceSyscall_log (s : State) :
    s.traceSyscall.log = s.log ++ [.syscallTrace (s.x 17)
      #v[s.x 10, s.x 11, s.x 12, s.x 13, s.x 14, s.x 15, s.x 16]] := rfl

@[simp] theorem traceSyscall_debug (s : State) : s.traceSyscall.debug = s.debug := rfl

/-- Settles O40: each of the four answers of `ecall_cases` starts from the traced state and appends at most one event
of another kind. -/
theorem ecallTraces : Obligations.EcallTraces := by
  intro s
  rcases ecall_cases s with ⟨bytes, _, _, hwrite⟩ | ⟨f, _, _, hfault⟩ | ⟨_, hexit⟩ | ⟨_, _, hother⟩
  · exact ⟨_, [.writeOut (s.x Reg.a0) bytes], hwrite, by simp, by simp, by simp⟩
  · exact ⟨_, [.haltReport (.fault f)], hfault, by simp, by simp, by simp⟩
  · exact ⟨_, [.exitDiag (s.x Reg.a0) (s.x Reg.a1 == 0)], hexit, by simp, by simp, by simp⟩
  · exact ⟨_, [], hother, by simp, by simp, by simp⟩

end Sys2Proof.Proofs
end

section
/-! SUPPORT. The decoder and the encoder are inverse to each other, and the words no row selects (30_encoding.md R94
to R110). -/

namespace Sys2Proof.Proofs

open Sys2Proof.Machine Sys2Proof.Laws

/-! ### Decoding an encoded instruction -/

theorem selects_of_mask {r : Row} {w fixed : BitVec 32} (hw : w &&& r.mask = fixed) (hfixed : fixed = r.bits) :
    r.selects w = true :=
  (selects_iff r w).2 (hw.trans hfixed)

theorem slli_selects {x : Xlen} {rd rs1 : Reg} {shamt : BitVec 6} (h : shamt.toNat < x.bits) :
    (rowSlli x).selects (encode (.slli rd rs1 shamt)) = true := by
  cases x with
  | rv32 =>
    have hbit : shamt.getLsbD 5 = false := by
      rw [← BitVec.testBit_toNat]
      exact Nat.testBit_lt_two_pow h
    exact selects_of_mask (encI_shift_mask32 _ _ _ _ _ hbit) (by decide)
  | rv64 => exact selects_of_mask (encI_shift_mask ..) (by decide)

/-- The row of a well-formed instruction selects its encoding, and the fields come back (30_encoding.md R100, R102). -/
theorem decodeRow_encode {x : Xlen} {i : Instr} (h : i.wf x = true) : decodeRow x (encode i) = some i := by
  cases i with
  | add rd rs1 rs2 =>
    have hs : rowAdd.selects (encode (.add rd rs1 rs2)) = true := selects_of_mask (encR_mask ..) (by decide)
    rw [decodeRow_add hs, encode, encR_rd, encR_rs1, encR_rs2]
  | sub rd rs1 rs2 =>
    have hs : rowSub.selects (encode (.sub rd rs1 rs2)) = true := selects_of_mask (encR_mask ..) (by decide)
    rw [decodeRow_sub hs, encode, encR_rd, encR_rs1, encR_rs2]
  | slli rd rs1 shamt =>
    rw [decodeRow_slli (slli_selects (of_decide_eq_true h)), encode, encI_rd, encI_rs1, encI_shamt]
  | addi rd rs1 imm =>
    have hs : rowAddi.selects (encode (.addi rd rs1 imm)) = true := selects_of_mask (encI_mask ..) (by decide)
    rw [decodeRow_addi hs, encode, encI_rd, encI_rs1, encI_imm]
  | auipc rd imm =>
    have hs : rowAuipc.selects (encode (.auipc rd imm)) = true := selects_of_mask (encU_mask ..) (by decide)
    rw [decodeRow_auipc hs, encode, encU_rd, encU_imm]
  | lb rd rs1 imm =>
    have hs : rowLb.selects (encode (.lb rd rs1 imm)) = true := selects_of_mask (encI_mask ..) (by decide)
    rw [decodeRow_lb hs, encode, encI_rd, encI_rs1, encI_imm]
  | lw rd rs1 imm =>
    have hs : rowLw.selects (encode (.lw rd rs1 imm)) = true := selects_of_mask (encI_mask ..) (by decide)
    rw [decodeRow_lw hs, encode, encI_rd, encI_rs1, encI_imm]
  | jal rd imm =>
    have hs : rowJal.selects (encode (.jal rd imm)) = true := selects_of_mask (encJ_mask ..) (by decide)
    have heven : imm.getLsbD 0 = false := by simpa [Instr.wf] using h
    rw [decodeRow_jal hs, encode, encJ_rd, encJ_imm _ _ _ heven]
  | jalr rd rs1 imm =>
    have hs : rowJalr.selects (encode (.jalr rd rs1 imm)) = true := selects_of_mask (encI_mask ..) (by decide)
    rw [decodeRow_jalr hs, encode, encI_rd, encI_rs1, encI_imm]
  | bne rs1 rs2 imm =>
    have hs : rowBne.selects (encode (.bne rs1 rs2 imm)) = true := selects_of_mask (encB_mask ..) (by decide)
    have heven : imm.getLsbD 0 = false := by simpa [Instr.wf] using h
    rw [decodeRow_bne hs, encode, encB_rs1, encB_rs2, encB_imm _ _ _ _ _ heven]
  | ecall => exact decodeRow_ecall x

theorem decode_encode (c : Config) {i : Instr} (h : i.wf c.xlen = true) : decode c .four (encode i) = .op i :=
  decode_of_decodeRow c (decodeRow_encode h)

/-! ### The bytes of a word -/

theorem opcode_encode (i : Instr) : (encode i).extractLsb' 0 7 = Opcode.column i := by
  cases i with
  | add rd rs1 rs2 => exact Opcode.add rd rs1 rs2
  | sub rd rs1 rs2 => exact Opcode.sub rd rs1 rs2
  | slli rd rs1 shamt => exact Opcode.slli rd rs1 shamt
  | addi rd rs1 imm => exact Opcode.addi rd rs1 imm
  | auipc rd imm => exact Opcode.auipc rd imm
  | lb rd rs1 imm => exact Opcode.lb rd rs1 imm
  | lw rd rs1 imm => exact Opcode.lw rd rs1 imm
  | jal rd imm => exact Opcode.jal rd imm
  | jalr rd rs1 imm => exact Opcode.jalr rd rs1 imm
  | bne rs1 rs2 imm => exact Opcode.bne rs1 rs2 imm
  | ecall => exact Opcode.ecall

/-- Every opcode of 30_encoding.md R100 ends in `11`, so its word is four bytes long (R90). -/
theorem encode_mod_four (i : Instr) : (encode i).toNat % 4 = 3 := by
  have hcol : (Opcode.column i).toNat % 4 = 3 := by cases i <;> simp [Opcode.column]
  have hlow := congrArg BitVec.toNat (opcode_encode i)
  rw [BitVec.extractLsb'_toNat, Nat.shiftRight_zero] at hlow
  omega

theorem parcelOf_low_bytes (w : BitVec 32) :
    parcelOf (w.extractLsb' 0 8) (w.extractLsb' 8 8) = w.extractLsb' 0 16 :=
  BitVec.extractLsb'_append_extractLsb'_eq_extractLsb' rfl

theorem parcelOf_high_bytes (w : BitVec 32) :
    parcelOf (w.extractLsb' 16 8) (w.extractLsb' 24 8) = w.extractLsb' 16 16 :=
  BitVec.extractLsb'_append_extractLsb'_eq_extractLsb' rfl

theorem composeWord_parcels (w : BitVec 32) : composeWord (w.extractLsb' 16 16) (w.extractLsb' 0 16) = w :=
  (BitVec.extractLsb'_append_extractLsb'_eq_extractLsb' rfl).trans BitVec.extractLsb'_eq_self

theorem lenOf_low_parcel {w : BitVec 32} (h : w.toNat % 4 = 3) : lenOf (w.extractLsb' 0 16) = .four := by
  rw [two_low_bits, BitVec.extractLsb'_toNat, Nat.shiftRight_zero]
  omega

/-- A word whose two low bits are `11` is read from its four bytes as a whole (30_encoding.md R90, R91, R110). -/
theorem decodeBytes_wordBytes (c : Config) {w : BitVec 32} (h : w.toNat % 4 = 3) :
    decodeBytes c (wordBytes w) = some (decode c .four w, []) := by
  simp only [wordBytes, decodeBytes, parcelOf_low_bytes, parcelOf_high_bytes, lenOf_low_parcel h, composeWord_parcels]

/-- Settles O16: each row selects the word built from its columns, and the word is read from its four bytes whole. -/
theorem decodeEncode : Obligations.DecodeEncode := by
  intro c i h
  have hdec := decode_encode c h
  exact ⟨hdec, by rw [encodeBytes, decodeBytes_wordBytes c (encode_mod_four i), hdec]⟩

/-! ### Encoding a decoded word -/

/-- The row fixes the field of `n` bits from bit `lo` on at `v`. -/
def rowFixes (r : Row) (lo n : Nat) (v : BitVec n) : Bool :=
  r.mask.extractLsb' lo n == BitVec.allOnes n && r.bits.extractLsb' lo n == v

/-- A field that a row fixes has the row's value in every word it selects. -/
theorem extract_of_rowFixes {r : Row} {w : BitVec 32} (hs : r.selects w = true) {lo n : Nat} {v : BitVec n}
    (hf : rowFixes r lo n v = true) : w.extractLsb' lo n = v := by
  simp only [rowFixes, Bool.and_eq_true, beq_iff_eq] at hf
  obtain ⟨hmask, hbits⟩ := hf
  rw [extract_of_mask w ((selects_iff r w).1 hs) lo n hmask, hbits]

theorem encR_of_selects {r : Row} {w : BitVec 32} {f7 : BitVec 7} {f3 : BitVec 3} {op : BitVec 7}
    (hs : r.selects w = true) (h7 : rowFixes r 25 7 f7 = true) (h3 : rowFixes r 12 3 f3 = true)
    (hop : rowFixes r 0 7 op = true) : encR f7 (rs2Of w) (rs1Of w) f3 (rdOf w) op = w := by
  rw [← extract_of_rowFixes hs h7, ← extract_of_rowFixes hs h3, ← extract_of_rowFixes hs hop, encR_fields]

theorem encI_of_selects {r : Row} {w : BitVec 32} {f3 : BitVec 3} {op : BitVec 7} (hs : r.selects w = true)
    (h3 : rowFixes r 12 3 f3 = true) (hop : rowFixes r 0 7 op = true) :
    encI (immIOf w) (rs1Of w) f3 (rdOf w) op = w := by
  rw [← extract_of_rowFixes hs h3, ← extract_of_rowFixes hs hop, encI_fields]

/-- An SLLI word carries its six fixed high bits at either width (30_encoding.md R99). -/
theorem encode_slli_of_selects {x : Xlen} {w : BitVec 32} (hs : (rowSlli x).selects w = true) :
    encode (.slli (rdOf w) (rs1Of w) (shamtOf w)) = w := by
  have hhi : w.extractLsb' 26 6 = 0b000000#6 := extract_of_rowFixes hs (by cases x <;> decide)
  have h3 : w.extractLsb' 12 3 = 0b001#3 := extract_of_rowFixes hs (by cases x <;> decide)
  have hop : w.extractLsb' 0 7 = 0b0010011#7 := extract_of_rowFixes hs (by cases x <;> decide)
  rw [encode, ← hhi, ← h3, ← hop, encI_shift_fields]

/-- The fields that the row of a word does not fix make the operation, so its encoding is the word again. -/
theorem encode_of_decodeRow {x : Xlen} {w : BitVec 32} {i : Instr} (h : decodeRow x w = some i) : encode i = w := by
  rcases decodeRow_cases h with ⟨hs, rfl⟩ | ⟨hs, rfl⟩ | ⟨hs, rfl⟩ | ⟨hs, rfl⟩ | ⟨hs, rfl⟩ | ⟨hs, rfl⟩ | ⟨hs, rfl⟩ |
    ⟨hs, rfl⟩ | ⟨hs, rfl⟩ | ⟨hs, rfl⟩ | ⟨hs, rfl⟩
  · exact encR_of_selects hs (by decide) (by decide) (by decide)
  · exact encR_of_selects hs (by decide) (by decide) (by decide)
  · exact encode_slli_of_selects hs
  · exact encI_of_selects hs (by decide) (by decide)
  · have hop : w.extractLsb' 0 7 = 0b0010111#7 := extract_of_rowFixes hs (by decide)
    rw [encode, ← hop, encU_fields]
  · exact encI_of_selects hs (by decide) (by decide)
  · exact encI_of_selects hs (by decide) (by decide)
  · have hop : w.extractLsb' 0 7 = 0b1101111#7 := extract_of_rowFixes hs (by decide)
    rw [encode, ← hop, encJ_fields]
  · exact encI_of_selects hs (by decide) (by decide)
  · have h3 : w.extractLsb' 12 3 = 0b001#3 := extract_of_rowFixes hs (by decide)
    have hop : w.extractLsb' 0 7 = 0b1100011#7 := extract_of_rowFixes hs (by decide)
    rw [encode, ← h3, ← hop, encB_fields]
  · exact ((selects_iff _ _).1 hs).symm.trans BitVec.and_allOnes

/-- The XLEN = 32 mask of SLLI holds bit 5 of the shift amount at 0 (30_encoding.md R99). -/
theorem shamtOf_lt {x : Xlen} {w : BitVec 32} (hs : (rowSlli x).selects w = true) : (shamtOf w).toNat < x.bits := by
  cases x with
  | rv32 =>
    have hbit : w.extractLsb' 25 1 = 0#1 := extract_of_rowFixes hs (by decide)
    have hnat := congrArg BitVec.toNat hbit
    simp only [BitVec.extractLsb'_toNat, Nat.shiftRight_eq_div_pow] at hnat
    simp only [shamtOf, BitVec.extractLsb'_toNat, Nat.shiftRight_eq_div_pow, Xlen.bits]
    norm_num at hnat ⊢
    omega
  | rv64 => exact (shamtOf w).isLt

theorem getLsbD_append_zero {n : Nat} (v : BitVec n) : (v ++ 0#1).getLsbD 0 = false := by
  rw [BitVec.getLsbD_append]; rfl

/-- A jump offset ends in a 0 bit (30_encoding.md R97). -/
theorem wf_jal_immJOf (x : Xlen) (rd : Reg) (w : BitVec 32) : Instr.wf x (.jal rd (immJOf w)) = true :=
  congrArg not (getLsbD_append_zero _)

/-- A branch offset ends in a 0 bit (30_encoding.md R98). -/
theorem wf_bne_immBOf (x : Xlen) (rs1 rs2 : Reg) (w : BitVec 32) : Instr.wf x (.bne rs1 rs2 (immBOf w)) = true :=
  congrArg not (getLsbD_append_zero _)

theorem wf_of_decodeRow {x : Xlen} {w : BitVec 32} {i : Instr} (h : decodeRow x w = some i) : i.wf x = true := by
  rcases decodeRow_cases h with ⟨_, rfl⟩ | ⟨_, rfl⟩ | ⟨hs, rfl⟩ | ⟨_, rfl⟩ | ⟨_, rfl⟩ | ⟨_, rfl⟩ | ⟨_, rfl⟩ |
    ⟨_, rfl⟩ | ⟨_, rfl⟩ | ⟨_, rfl⟩ | ⟨_, rfl⟩
  exacts [rfl, rfl, decide_eq_true (shamtOf_lt hs), rfl, rfl, rfl, rfl, wf_jal_immJOf _ _ _, rfl, wf_bne_immBOf _ _ _ _,
    rfl]

/-- Settles O17: only a row answers an operation, and the row says both what the word is and that it is well-formed. -/
theorem encodeDecode : Obligations.EncodeDecode := by
  intro c len bits i h
  obtain ⟨hlen, hrow⟩ := (decode_op_iff c len bits i).1 h
  exact ⟨hlen, wf_of_decodeRow hrow, encode_of_decodeRow hrow⟩

/-! ### Every other word -/

/-- The SLLI words with bit 25 set, in the form of a row (30_encoding.md R99, D14). -/
def rowReserved : Row := ⟨"SLLI", 0x02001013#32, 0xFE00707F#32⟩

theorem rowReserved_selects_iff (w : BitVec 32) :
    rowReserved.selects w = true ↔ w &&& 0xFC00707F#32 = 0x00001013#32 ∧ w.getLsbD 25 = true := by
  have hsplit : w &&& 0xFE00707F#32 = (w &&& 0xFC00707F#32) ||| (w &&& BitVec.twoPow 32 25) := by
    rw [← BitVec.and_or_distrib_left]; rfl
  rw [selects_iff, rowReserved]
  constructor
  · intro h
    have hbit := congrArg (BitVec.getLsbD · 25) h
    refine ⟨?_, by simpa using hbit⟩
    have hmask := congrArg (· &&& 0xFC00707F#32) h
    simpa [BitVec.and_assoc] using hmask
  · rintro ⟨h, hbit⟩
    simp only [hsplit, h, BitVec.and_twoPow, hbit]
    rfl

theorem reservedSlli_iff (x : Xlen) (w : BitVec 32) :
    reservedSlli x w = true ↔ x = .rv32 ∧ rowReserved.selects w = true := by
  rw [rowReserved_selects_iff]
  simp [reservedSlli, and_assoc]

/-- At XLEN = 32 no row selects a reserved SLLI word. -/
theorem decodeRow_reserved {w : BitVec 32} (h : rowReserved.selects w = true) : decodeRow .rv32 w = none := by
  have none_of_rows : ∀ q ∈ rows .rv32, q.selects w = false := by
    intro q hq
    exact selects_exclusive (by revert q; decide) w h
  simp only [rows, List.forall_mem_cons] at none_of_rows
  simp [decodeRow, none_of_rows]

theorem decode_reserved {c : Config} {w : BitVec 32} (hx : c.xlen = .rv32) (h : rowReserved.selects w = true) :
    decode c .four w = .illegal := by
  have hres : reservedSlli .rv32 w = true := (reservedSlli_iff .rv32 w).2 ⟨rfl, h⟩
  simp only [decode, hx, decodeRow_reserved h, hres, if_true]

/-- A word that is no operation's encoding and not reserved is left to CLASSIFY_OTHER (30_encoding.md R103). -/
theorem decode_of_no_encoding {c : Config} {w : BitVec 32} (hne : ∀ i : Instr, i.wf c.xlen = true → encode i ≠ w)
    (hres : ¬(c.xlen = .rv32 ∧ rowReserved.selects w = true)) : decode c .four w = decodeOther c .four w := by
  have hrow : decodeRow c.xlen w = none := by
    cases h : decodeRow c.xlen w with
    | none => rfl
    | some i => exact absurd (encode_of_decodeRow h) (hne i (wf_of_decodeRow h))
  rw [← reservedSlli_iff] at hres
  simp only [decode, hrow, hres]
  rfl

theorem decodeOther_illegal {c : Config} {len : ILen} {bits : BitVec 32} (h : c.classify.verdict len bits = .illegal) :
    decodeOther c len bits = .illegal := by
  simp only [decodeOther, h]

theorem decodeOther_unimplemented {c : Config} {len : ILen} {bits : BitVec 32}
    (h : c.classify.verdict len bits = .unimplemented) : decodeOther c len bits = .unimplemented := by
  simp only [decodeOther, h]

/-- Settles O18: a parcel goes to CLASSIFY_OTHER by definition, a word unless it is an encoding or reserved. -/
theorem decodeOther : Obligations.DecodeOther := by
  intro c bits
  refine ⟨decodeOther_illegal, decodeOther_unimplemented,
    fun hx hmask => decode_reserved hx ((selects_iff _ _).2 hmask), fun hne hres => ?_⟩
  rw [decode_of_no_encoding hne (by rwa [selects_iff])]
  exact ⟨decodeOther_illegal, decodeOther_unimplemented⟩

/-- Settles O15, by evaluating the decoder on the seven words. -/
theorem decodedWords : Obligations.DecodedWords := by
  unfold Obligations.DecodedWords
  decide

/-- Settles O41: the encoding of the one ECALL term is the one word that decodes to it. -/
theorem ecallEncoding : Obligations.EcallEncoding := by
  intro c w
  constructor
  · intro h
    exact (encode_of_decodeRow ((decode_op_iff _ _ _ _).1 h).2).symm
  · rintro rfl
    exact decode_encode c (i := .ecall) rfl

end Sys2Proof.Proofs
end

section
/-! SUPPORT. What an update of the state leaves unchanged, in the words of the statements. -/

namespace Sys2Proof.Proofs

open Sys2Proof.Machine

/-- A halt after `evs` have been emitted changes nothing else (40_fetch_engine.md R144, R145). -/
theorem haltedOn_emitted (s : State) (evs : List Event) (h : Halt) :
    HaltedOn h evs s (State.haltWith { s with log := s.log ++ evs } h) :=
  ⟨fun _ => rfl, fun _ => rfl, fun _ => rfl, rfl, rfl, rfl, rfl, rfl, rfl⟩

theorem emitted_nil (s : State) : { s with log := s.log ++ [] } = s := by rw [List.append_nil]

theorem haltedOn_haltWith (s : State) (h : Halt) : HaltedOn h [] s (s.haltWith h) := by
  simpa only [emitted_nil] using haltedOn_emitted s [] h

/-- The trace event of a tick is `traceEvents` in the log, and nothing else (40_fetch_engine.md R140). -/
theorem traceInstr_emitted (s : State) (d : Fetched) : s.traceInstr d = { s with log := s.log ++ traceEvents s d } :=
  traceInstr_eq s d

theorem haltedOn_traceInstr (s : State) (d : Fetched) (h : Halt) :
    HaltedOn h (traceEvents s d) s ((s.traceInstr d).haltWith h) := by
  rw [traceInstr_emitted]
  exact haltedOn_emitted s _ h

/-- Writing one register and the pc keeps everything else. -/
theorem onlyRegAndPc_setX_setPc (s : State) (rd : Reg) (v p : Word) : OnlyRegAndPc rd s ((s.setX rd v).setPc p) := by
  refine ⟨fun r hr => setX_x_ne s hr v, fun q => setX_f s rd v q, fun a => setX_byteAt s rd v a, ?_, setX_log s rd v⟩
  exact ⟨setX_cfg s rd v, setX_running s rd v, setX_debug s rd v, setX_halt s rd v⟩

theorem onlyPc_setPc (s : State) (p : Word) : OnlyPc s (s.setPc p) :=
  ⟨fun _ => rfl, fun _ => rfl, fun _ => rfl, ⟨rfl, rfl, rfl, rfl⟩, rfl⟩

theorem sameRegs_setX_zero_setPc (s : State) (v p : Word) : SameRegs s ((s.setX 0 v).setPc p) := fun _ => rfl

theorem advanced_nextPc (s : State) : Advanced s (s.nextPc .four) := toNat_trunc_add _ _ _

theorem advanced_setX_nextPc (s : State) (rd : Reg) (v : Word) : Advanced s ((s.setX rd v).nextPc .four) := by
  rw [Advanced, nextPc_pc, setX_pc, setX_cfg, toNat_trunc_add]
  rfl

end Sys2Proof.Proofs
end

section
/-! SUPPORT. The invariant: every update of the state keeps it, so every step does (10_state.md, 20_memory.md R50). -/

namespace Sys2Proof.Proofs

open Sys2Proof.Machine

/-! ### The updates -/

theorem inv_setX {s : State} (h : s.Inv) (r : Reg) (v : Word) : (s.setX r v).Inv := by
  constructor <;> simp only [setX_cfg, setX_buf, setX_f, setX_pc, setX_halt, setX_log, setX_running]
  case gprFits =>
    intro q
    rw [setX_x]
    split
    · exact trunc_lt _ _
    · exact h.gprFits q
  exacts [h.range, h.bufWf, h.bufInside, h.fprFits, h.pcFits, h.haltOk, h.logOk, h.runningNone]

theorem inv_setPc {s : State} (h : s.Inv) (v : Word) : (s.setPc v).Inv := { h with pcFits := trunc_lt _ _ }

theorem inv_nextPc {s : State} (h : s.Inv) (len : ILen) : (s.nextPc len).Inv := inv_setPc h _

theorem logOk_append {s : State} (h : s.Inv) {e : Event} (he : e.ok s.cfg.xlen) :
    ∀ e' ∈ s.log ++ [e], e'.ok s.cfg.xlen := by
  simpa [or_imp, forall_and] using ⟨h.logOk, he⟩

theorem inv_emit {s : State} (h : s.Inv) {e : Event} (he : e.ok s.cfg.xlen) : (s.emit e).Inv :=
  { h with logOk := logOk_append h he }

/-- A stop with a record: the running flag is clear, so the record may be set (10_state.md R32). -/
theorem inv_stop {s : State} (h : s.Inv) {k : Halt} (hk : k.ok s.cfg.xlen) :
    State.Inv { s with running := false, halt := k } :=
  { h with haltOk := hk, runningNone := nofun }

theorem inv_haltWith {s : State} (h : s.Inv) {k : Halt} (hk : k.ok s.cfg.xlen) : (s.haltWith k).Inv :=
  inv_emit (inv_stop h hk) hk

theorem inv_traceInstr {s : State} (h : s.Inv) (d : Fetched) : (s.traceInstr d).Inv := by
  unfold State.traceInstr
  split
  · exact inv_emit h h.pcFits
  · exact h

theorem inv_traceSyscall {s : State} (h : s.Inv) : s.traceSyscall.Inv := by
  refine inv_emit h ⟨h.gprFits _, ?_⟩
  simp [State.syscallArgs, h.gprFits]

/-! ### The faults -/

/-- The faults of a fetch carry the pc or the second parcel's address, both cut to XLEN bits. -/
theorem fetch_error_delivered {s : State} (h : s.Inv) {f : Fault} (hf : s.fetch = .error f) :
    f.delivered s.cfg.xlen := by
  rcases fetch_error hf with rfl | rfl | ⟨_, rfl⟩ | rfl | rfl
  exacts [h.pcFits, h.pcFits, h.pcFits, trunc_lt _ _, trunc_lt _ _]

theorem fits_ofNat_mod (s : State) (n : Nat) : fits s.cfg.xlen (BitVec.ofNat 64 (n % s.modulus)) := by
  rw [State.modulus, ← truncNat_eq]
  exact trunc_lt _ _

/-- The faults of a byte-range read carry its start, or its end cut to XLEN bits (20_memory.md R60). -/
theorem readBytes_error_delivered {s : State} {a : Word} {len : Nat} {f : Fault} (ha : fits s.cfg.xlen a)
    (hf : s.readBytes a len = .error f) : f.delivered s.cfg.xlen := by
  rcases readBytes_cases s a len with ⟨_, e⟩ | ⟨_, _, _, e⟩ | ⟨_, _, e⟩
  · obtain rfl := Except.error.inj (e.symm.trans hf)
    exact ha
  · obtain rfl := Except.error.inj (e.symm.trans hf)
    exact fits_ofNat_mod s _
  · cases e.symm.trans hf

/-! ### The operations and the step -/

theorem ecall_keeps_inv {s t : State} (h : s.Inv) (he : exec .ecall s = .next t) : t.Inv := by
  rcases ecall_cases s with ⟨bytes, _, _, e⟩ | ⟨f, _, hf, e⟩ | ⟨_, e⟩ | ⟨_, _, e⟩ <;>
    obtain rfl := Host.Outcome.next.inj (e.symm.trans he)
  · have hok : Event.ok s.cfg.xlen (.writeOut (s.x Reg.a0) bytes) := h.gprFits Reg.a0
    exact inv_nextPc (inv_setX (inv_emit (inv_traceSyscall h) hok) _ _) _
  · exact inv_haltWith (inv_traceSyscall h) (readBytes_error_delivered (h.gprFits _) hf)
  · have hstop := inv_stop (k := .exit) (inv_traceSyscall h) trivial
    have hok : Event.ok s.cfg.xlen (.exitDiag (s.x Reg.a0) (s.x Reg.a1 == 0)) := h.gprFits Reg.a0
    exact inv_nextPc (inv_emit hstop hok) _
  · exact inv_nextPc (inv_traceSyscall h) _

theorem exec_keeps_inv {i : Instr} {s t : State} (h : s.Inv) (he : exec i s = .next t) : t.Inv := by
  rcases exec_cases i s with ⟨rd, v, p, _, _, e⟩ | ⟨p, _, _, e⟩ | ⟨rs1, imm, f, _, hf, e⟩ | rfl
  · obtain rfl := Host.Outcome.next.inj (e.symm.trans he)
    exact inv_setPc (inv_setX h rd v) p
  · obtain rfl := Host.Outcome.next.inj (e.symm.trans he)
    exact inv_setPc h p
  · obtain rfl := Host.Outcome.next.inj (e.symm.trans he)
    have hok : f.delivered s.cfg.xlen := by rcases hf with rfl | rfl <;> exact trunc_lt _ _
    exact inv_haltWith h hok
  · exact ecall_keeps_inv h he

/-- Settles O43: each of the cases of a step is made of updates that keep the invariant. -/
theorem stepInv : Obligations.StepInv := by
  intro s t h hstep
  rcases step_cases hstep with ⟨hidle, rfl⟩ | ⟨_, rfl⟩ | ⟨f, _, hf, rfl⟩ | ⟨d, _, _, _, rfl⟩ | ⟨d, _, _, _, rfl⟩ |
    ⟨d, i, _, _, _, he⟩
  · exact { h with runningNone := fun _ => ((phase_idle s).1 hidle).2 }
  · exact h
  · exact inv_haltWith h (fetch_error_delivered h hf)
  · exact inv_haltWith h h.pcFits
  · have hok : Halt.ok (s.traceInstr d).cfg.xlen (.unimplemented d.bits s.pc) := by
      rw [traceInstr_cfg]
      exact h.pcFits
    exact inv_haltWith (inv_traceInstr h d) hok
  · exact exec_keeps_inv (inv_traceInstr h d) he

end Sys2Proof.Proofs
end

section
/-! SUPPORT. What the guest cannot observe: the debug flag, the log and the floating-point file (10_state.md R27, R31,
R43), and the verdict CLASSIFY_OTHER (00_scope.md R13). -/

namespace Sys2Proof.Proofs

open Sys2Proof.Machine Sys2Proof.Laws

theorem exists_step (s : State) : ∃ t, step s = .next t := by
  cases hp : s.phase with
  | idle => exact ⟨_, step_idle hp⟩
  | halted => exact ⟨_, step_halted hp⟩
  | running =>
    cases hf : s.fetch with
    | error f => exact ⟨_, step_fetch_error hp hf⟩
    | ok d =>
      cases hd : decode s.cfg d.len d.bits with
      | illegal => exact ⟨_, step_illegal hp hf hd⟩
      | unimplemented => exact ⟨_, step_unimplemented hp hf hd⟩
      | op i =>
        obtain ⟨t, ht⟩ := exec_answers i (s.traceInstr d)
        exact ⟨t, (step_op hp hf hd).trans ht⟩

/-- Settles O44: each phase, and each answer of the fetch and the decoder, has its next state. -/
theorem stepAnswers : Obligations.StepAnswers := exists_step

/-! ### Two states the guest sees alike: the updates and the reads -/

section
variable {s s' : State}

theorem sameView_x (h : SameGuestView s s') (r : Reg) : s'.x r = s.x r := x_congr h.2.1 r

theorem sameView_setX (h : SameGuestView s s') (r : Reg) (v : Word) : SameGuestView (s.setX r v) (s'.setX r v) := by
  obtain ⟨hcfg, hgpr, hpc, hrun, hhalt, hbuf⟩ := h
  refine ⟨by simpa using hcfg, ?_, by simpa using hpc, by simpa using hrun, by simpa using hhalt, by simpa using hbuf⟩
  unfold State.setX
  split
  · exact hgpr
  · simp only [hcfg, hgpr]

theorem sameView_setPc (h : SameGuestView s s') (v : Word) : SameGuestView (s.setPc v) (s'.setPc v) := by
  obtain ⟨hcfg, hgpr, _, hrun, hhalt, hbuf⟩ := h
  exact ⟨hcfg, hgpr, by rw [setPc_pc, setPc_pc, hcfg], hrun, hhalt, hbuf⟩

theorem sameView_nextPc (h : SameGuestView s s') (len : ILen) : SameGuestView (s.nextPc len) (s'.nextPc len) := by
  rw [State.nextPc, State.nextPc, h.2.2.1]
  exact sameView_setPc h _

theorem sameView_emit (h : SameGuestView s s') (e e' : Event) : SameGuestView (s.emit e) (s'.emit e') := h

theorem sameView_stop (h : SameGuestView s s') (k : Halt) :
    SameGuestView { s with running := false, halt := k } { s' with running := false, halt := k } := by
  obtain ⟨hcfg, hgpr, hpc, _, _, hbuf⟩ := h
  exact ⟨hcfg, hgpr, hpc, rfl, rfl, hbuf⟩

theorem sameView_haltWith (h : SameGuestView s s') (k : Halt) : SameGuestView (s.haltWith k) (s'.haltWith k) :=
  sameView_stop h k

theorem sameView_traceInstr (h : SameGuestView s s') (d : Fetched) :
    SameGuestView (s.traceInstr d) (s'.traceInstr d) := by
  rw [traceInstr_eq, traceInstr_eq]
  exact h

theorem readBytes_congr (hc : s'.cfg = s.cfg) (hb : s'.buf = s.buf) (a : Word) (len : Nat) :
    s'.readBytes a len = s.readBytes a len := by
  unfold State.readBytes
  rw [hc, hb]

theorem sameView_fetch (h : SameGuestView s s') : s'.fetch = s.fetch := by
  obtain ⟨hcfg, _, hpc, _, _, hbuf⟩ := h
  exact fetch_congr hcfg hbuf hpc

theorem sameView_phase (h : SameGuestView s s') : s'.phase = s.phase := by
  obtain ⟨_, _, _, hrun, hhalt, _⟩ := h
  unfold State.phase
  rw [hrun, hhalt]

end

/-! ### Two states the guest sees alike: the operations and the step -/

/-- Two outcomes are next states that the guest sees alike. -/
def SameOutcomeView (o o' : Host.Outcome State Fault Refusal) : Prop :=
  ∃ t t', o = .next t ∧ o' = .next t' ∧ SameGuestView t t'

theorem sameOutcome_next {t t' : State} (h : SameGuestView t t') : SameOutcomeView (.next t) (.next t') :=
  ⟨t, t', rfl, rfl, h⟩

section
variable {s s' : State}

theorem sameView_writeResult (h : SameGuestView s s') (rd : Reg) (v : Word) :
    SameOutcomeView (writeResult rd v s) (writeResult rd v s') :=
  sameOutcome_next (sameView_nextPc (sameView_setX h rd v) _)

theorem sameView_loadTo (h : SameGuestView s s') (rd : Reg) (a : Word) (w : Width) :
    SameOutcomeView (loadTo rd a w s) (loadTo rd a w s') := by
  have ⟨hcfg, _, _, _, _, hbuf⟩ := h
  unfold loadTo
  rw [memRead_congr hcfg hbuf, hcfg]
  cases s.memRead a w with
  | error f => exact sameOutcome_next (sameView_haltWith h _)
  | ok v => exact sameOutcome_next (sameView_nextPc (sameView_setX h rd _) _)

theorem sameView_ea (h : SameGuestView s s') (rs1 : Reg) (imm : BitVec 12) : s'.ea rs1 imm = s.ea rs1 imm := by
  rw [State.ea, State.ea, State.immI, State.immI, sameView_x h, h.1]

theorem sameView_differ (h : SameGuestView s s') (rs1 rs2 : Reg) : s'.differ rs1 rs2 = s.differ rs1 rs2 := by
  rw [State.differ, State.differ, sameView_x h, sameView_x h]

theorem sameView_syscallArgs (h : SameGuestView s s') : s'.syscallArgs = s.syscallArgs := by
  simp only [State.syscallArgs, sameView_x h]

theorem sameView_sysWrite (h : SameGuestView s s') (args : Vector Word 7) :
    SameOutcomeView (sysWrite args s) (sysWrite args s') := by
  have ⟨hcfg, _, _, _, _, hbuf⟩ := h
  unfold sysWrite
  rw [readBytes_congr hcfg hbuf]
  cases s.readBytes args[1] args[2].toNat with
  | error f => exact sameOutcome_next (sameView_haltWith h _)
  | ok bytes => exact sameOutcome_next (sameView_nextPc (sameView_setX (sameView_emit h _ _) _ _) _)

theorem sameView_execEcall (h : SameGuestView s s') : SameOutcomeView (execEcall s) (execEcall s') := by
  have hnum : s'.syscallNum = s.syscallNum := sameView_x h Reg.a7
  have htrace := sameView_emit h (.syscallTrace s.syscallNum s.syscallArgs) (.syscallTrace s.syscallNum s.syscallArgs)
  rw [execEcall, execEcall, hnum, sameView_syscallArgs h]
  by_cases hw : s.syscallNum = sysWriteNum
  · rw [if_pos hw, if_pos hw]
    exact sameView_sysWrite htrace _
  · rw [if_neg hw, if_neg hw]
    split
    · exact sameOutcome_next (sameView_nextPc (sameView_emit (sameView_stop htrace _) _ _) _)
    · exact sameOutcome_next (sameView_nextPc htrace _)

/-- No operation reads the debug flag, the log or the floating-point file. -/
theorem sameView_exec (h : SameGuestView s s') (i : Instr) : SameOutcomeView (exec i s) (exec i s') := by
  have ⟨hcfg, _, hpc, _, _, _⟩ := h
  have hx := sameView_x h
  cases i with
  | add rd rs1 rs2 =>
    simp only [exec, execAdd, hx]
    exact sameView_writeResult h rd _
  | sub rd rs1 rs2 =>
    simp only [exec, execSub, hx]
    exact sameView_writeResult h rd _
  | slli rd rs1 shamt =>
    simp only [exec, execSlli, hx]
    exact sameView_writeResult h rd _
  | addi rd rs1 imm =>
    simp only [exec, execAddi, State.immI, hx, hcfg]
    exact sameView_writeResult h rd _
  | auipc rd imm =>
    simp only [exec, execAuipc, State.immU, hpc, hcfg]
    exact sameView_writeResult h rd _
  | lb rd rs1 imm =>
    simp only [exec, execLb, sameView_ea h]
    exact sameView_loadTo h rd _ _
  | lw rd rs1 imm =>
    simp only [exec, execLw, sameView_ea h, hcfg]
    exact sameView_loadTo h rd _ _
  | jal rd imm =>
    simp only [exec, execJal, State.link, State.immJ, hpc, hcfg]
    exact sameOutcome_next (sameView_setPc (sameView_setX h rd _) _)
  | jalr rd rs1 imm =>
    simp only [exec, execJalr, State.link, State.immI, hx, hpc, hcfg]
    exact sameOutcome_next (sameView_setPc (sameView_setX h rd _) _)
  | bne rs1 rs2 imm =>
    simp only [exec, execBne, sameView_differ h, State.immB, hpc, hcfg]
    cases s.differ rs1 rs2 with
    | true => exact sameOutcome_next (sameView_setPc h _)
    | false => exact sameOutcome_next (sameView_nextPc h _)
  | ecall => exact sameView_execEcall h

end

/-- Settles O56: alike states are in one phase, fetch and decode the same, and execute it to alike states. -/
theorem diagnosticsUnobservable : Obligations.DiagnosticsUnobservable := by
  intro s s' h
  have hphase := sameView_phase h
  have hfetch := sameView_fetch h
  have ⟨hcfg, hgpr, hpc, _, hhalt, hbuf⟩ := h
  cases hp : s.phase with
  | idle => exact ⟨_, _, step_idle hp, step_idle (hphase.trans hp), hcfg, hgpr, hpc, rfl, hhalt, hbuf⟩
  | halted => exact ⟨_, _, step_halted hp, step_halted (hphase.trans hp), h⟩
  | running =>
    have hp' := hphase.trans hp
    cases hf : s.fetch with
    | error f =>
      exact ⟨_, _, step_fetch_error hp hf, step_fetch_error hp' (hfetch.trans hf), sameView_haltWith h _⟩
    | ok d =>
      have hf' := hfetch.trans hf
      cases hd : decode s.cfg d.len d.bits with
      | illegal =>
        refine ⟨_, _, step_illegal hp hf hd, step_illegal hp' hf' (hcfg ▸ hd), ?_⟩
        rw [hpc]
        exact sameView_haltWith h _
      | unimplemented =>
        refine ⟨_, _, step_unimplemented hp hf hd, step_unimplemented hp' hf' (hcfg ▸ hd), ?_⟩
        rw [hpc]
        exact sameView_haltWith (sameView_traceInstr h d) _
      | op i =>
        rw [step_op hp hf hd, step_op hp' hf' (hcfg ▸ hd)]
        exact sameView_exec (sameView_traceInstr h d) i

/-! ### Another CLASSIFY_OTHER -/

section
variable (s : State) (k : Classify)

theorem setX_withClassify (r : Reg) (v : Word) : (s.withClassify k).setX r v = (s.setX r v).withClassify k := by
  unfold State.setX
  split <;> rfl

theorem traceInstr_withClassify (d : Fetched) : (s.withClassify k).traceInstr d = (s.traceInstr d).withClassify k := by
  rw [traceInstr_eq, traceInstr_eq]
  rfl

theorem memRead_withClassify (a : Word) (w : Width) : (s.withClassify k).memRead a w = s.memRead a w := rfl

theorem readBytes_withClassify (a : Word) (len : Nat) : (s.withClassify k).readBytes a len = s.readBytes a len := rfl

theorem decode_withClassify_op (d : Fetched) (i : Instr) :
    decode (s.withClassify k).cfg d.len d.bits = .op i ↔ decode s.cfg d.len d.bits = .op i :=
  decode_op_congr (c := s.cfg) (c' := (s.withClassify k).cfg) rfl d.len d.bits i

theorem setX_setPc_withClassify (r : Reg) (v p : Word) :
    ((s.withClassify k).setX r v).setPc p = ((s.setX r v).setPc p).withClassify k := by
  rw [setX_withClassify]
  rfl

theorem setX_nextPc_withClassify (r : Reg) (v : Word) (len : ILen) :
    ((s.withClassify k).setX r v).nextPc len = ((s.setX r v).nextPc len).withClassify k := by
  rw [setX_withClassify]
  rfl

theorem loadTo_withClassify {t : State} {rd : Reg} {a : Word} {w : Width} (h : loadTo rd a w s = .next t) :
    loadTo rd a w (s.withClassify k) = .next (t.withClassify k) := by
  unfold loadTo at h ⊢
  rw [memRead_withClassify]
  cases hr : s.memRead a w with
  | error f =>
    rw [hr] at h
    obtain rfl := Host.Outcome.next.inj h
    rfl
  | ok v =>
    rw [hr] at h
    obtain rfl := Host.Outcome.next.inj h
    exact congrArg Host.Outcome.next (setX_nextPc_withClassify s k _ _ _)

theorem sysWrite_withClassify {t : State} {args : Vector Word 7} (h : sysWrite args s = .next t) :
    sysWrite args (s.withClassify k) = .next (t.withClassify k) := by
  unfold sysWrite at h ⊢
  rw [readBytes_withClassify]
  cases hr : s.readBytes args[1] args[2].toNat with
  | error f =>
    rw [hr] at h
    obtain rfl := Host.Outcome.next.inj h
    rfl
  | ok bytes =>
    rw [hr] at h
    obtain rfl := Host.Outcome.next.inj h
    exact congrArg Host.Outcome.next (setX_nextPc_withClassify (s.emit _) k _ _ _)

theorem execEcall_withClassify {t : State} (h : execEcall s = .next t) :
    execEcall (s.withClassify k) = .next (t.withClassify k) := by
  unfold execEcall at h
  split at h
  next hw => exact (if_pos hw).trans (sysWrite_withClassify _ k h)
  next hw =>
    refine (if_neg hw).trans ?_
    split at h
    next hexit =>
      obtain rfl := Host.Outcome.next.inj h
      exact if_pos hexit
    next hother =>
      obtain rfl := Host.Outcome.next.inj h
      exact if_neg hother

theorem execBne_withClassify {t : State} {rs1 rs2 : Reg} {imm : BitVec 13} (h : execBne rs1 rs2 imm s = .next t) :
    execBne rs1 rs2 imm (s.withClassify k) = .next (t.withClassify k) := by
  unfold execBne at h
  split at h
  next hne =>
    obtain rfl := Host.Outcome.next.inj h
    exact if_pos hne
  next heq =>
    obtain rfl := Host.Outcome.next.inj h
    exact if_neg heq

/-- No operation reads the verdict. -/
theorem exec_withClassify {i : Instr} {t : State} (h : exec i s = .next t) :
    exec i (s.withClassify k) = .next (t.withClassify k) := by
  cases i with
  | lb rd rs1 imm => exact loadTo_withClassify s k h
  | lw rd rs1 imm => exact loadTo_withClassify s k h
  | bne rs1 rs2 imm => exact execBne_withClassify s k h
  | ecall => exact execEcall_withClassify s k h
  | jal rd imm =>
    obtain rfl := Host.Outcome.next.inj h
    exact congrArg Host.Outcome.next (setX_setPc_withClassify s k _ _ _)
  | jalr rd rs1 imm =>
    obtain rfl := Host.Outcome.next.inj h
    exact congrArg Host.Outcome.next (setX_setPc_withClassify s k _ _ _)
  | _ =>
    obtain rfl := Host.Outcome.next.inj h
    exact congrArg Host.Outcome.next (setX_nextPc_withClassify s k _ _ _)

end

/-- Where no operation is decoded the engine halts, with a record that is neither `none` nor `Exit`
(40_fetch_engine.md R139, R141). -/
theorem step_not_op {s : State} {d : Fetched} (hp : s.phase = .running) (hf : s.fetch = .ok d)
    (hd : ∀ i, decode s.cfg d.len d.bits ≠ .op i) :
    ∃ h evs, h ≠ .none ∧ h ≠ .exit ∧ step s = .next (State.haltWith { s with log := s.log ++ evs } h) := by
  cases hdec : decode s.cfg d.len d.bits with
  | op i => exact absurd hdec (hd i)
  | illegal =>
    refine ⟨.fault (.illegalInstruction d.bits s.pc), [], nofun, nofun, ?_⟩
    rw [emitted_nil, step_illegal hp hf hdec]
  | unimplemented =>
    refine ⟨.unimplemented d.bits s.pc, traceEvents s d, nofun, nofun, ?_⟩
    rw [← traceInstr_emitted, step_unimplemented hp hf hdec]

/-- Settles O57: the verdict decides only where no operation is decoded, and there both engines halt. -/
theorem verdictUnobservable : Obligations.VerdictUnobservable := by
  intro s k
  have hphase : (s.withClassify k).phase = s.phase := rfl
  have hfetch : (s.withClassify k).fetch = s.fetch := rfl
  cases hp : s.phase with
  | idle => exact ⟨_, _, step_idle hp, step_idle hp, rfl, rfl, rfl, rfl, rfl, rfl, rfl, Iff.rfl, fun _ => rfl⟩
  | halted => exact ⟨_, _, step_halted hp, step_halted hp, rfl, rfl, rfl, rfl, rfl, rfl, rfl, Iff.rfl, fun _ => rfl⟩
  | running =>
    cases hf : s.fetch with
    | error f =>
      exact ⟨_, _, step_fetch_error hp hf, step_fetch_error hp hf, rfl, rfl, rfl, rfl, rfl, rfl, rfl, Iff.rfl,
        fun _ => rfl⟩
    | ok d =>
      by_cases hop : ∃ i, decode s.cfg d.len d.bits = .op i
      · obtain ⟨i, hd⟩ := hop
        obtain ⟨t, ht⟩ := exec_answers i (s.traceInstr d)
        have hstep' : step (s.withClassify k) = .next (t.withClassify k) := by
          rw [step_op (s := s.withClassify k) hp hf ((decode_withClassify_op s k d i).2 hd), traceInstr_withClassify,
            exec_withClassify _ k ht]
        exact ⟨t, _, (step_op hp hf hd).trans ht, hstep', rfl, rfl, rfl, rfl, rfl, rfl, rfl, Iff.rfl, fun _ => rfl⟩
      · rw [not_exists] at hop
        have hop' : ∀ i, decode (s.withClassify k).cfg d.len d.bits ≠ .op i := fun i =>
          mt (decode_withClassify_op s k d i).1 (hop i)
        obtain ⟨h, evs, hnone, hexit, hstep⟩ := step_not_op hp hf hop
        obtain ⟨h', evs', hnone', hexit', hstep'⟩ := step_not_op (s := s.withClassify k) hp hf hop'
        refine ⟨_, _, hstep, hstep', rfl, rfl, rfl, rfl, rfl, rfl, ?_, iff_of_false hexit' hexit, nofun⟩
        exact ((phase_halted _).2 ⟨rfl, hnone'⟩).trans ((phase_halted _).2 ⟨rfl, hnone⟩).symm

end Sys2Proof.Proofs
end

section
/-! SUPPORT. The tick of a decoded, an illegal and an unimplemented instruction (40_fetch_engine.md R139 to R142), the
phases (R130, R146) and the reset state. -/

namespace Sys2Proof.Proofs

open Sys2Proof.Machine

/-- Settles O19: the traced state is the state with `traceEvents` in its log. -/
theorem stepRunsDecoded : Obligations.StepRunsDecoded := by
  intro s d i hp hf hd
  rw [step_op hp hf hd, traceInstr_emitted]

/-- Settles O24: the illegal marker is dispatched to a halt, and no trace event comes before it. -/
theorem illegalHalts : Obligations.IllegalHalts := fun s _ hp hf hd =>
  ⟨_, step_illegal hp hf hd, haltedOn_haltWith s _⟩

/-- Settles O25: an unimplemented operation is traced and then dispatched to a halt. -/
theorem unimplementedHalts : Obligations.UnimplementedHalts := fun s d hp hf hd =>
  ⟨_, step_unimplemented hp hf hd, haltedOn_traceInstr s d _⟩

@[simp] theorem init_x (c : Config) (r : Reg) : (State.init c).x r = 0 := by simp [State.x, State.init]

@[simp] theorem init_f (c : Config) (q : FReg) : (State.init c).f q = 0 := by simp [State.f, State.init]

theorem inv_init {c : Config} (h : c.wf) : (State.init c).Inv where
  range := h
  bufWf := Memory.wf_nil
  bufInside := nofun
  gprFits r := by
    rw [init_x]
    exact Nat.two_pow_pos _
  fprFits r := by
    rw [init_f]
    exact Nat.two_pow_pos _
  pcFits := Nat.two_pow_pos _
  haltOk := trivial
  logOk := nofun
  runningNone := nofun

/-- Settles O42: reset is a construction with a legal range. -/
theorem resetInv : Obligations.ResetInv := inv_init (c := Config.standard) (by decide)

/-- Settles O45: a running tick is a step, which answers a next state. -/
theorem tickOnlyRunning : Obligations.TickOnlyRunning := by
  intro s
  constructor
  · intro h hp
    obtain ⟨t, ht⟩ := exists_step s
    have htick : step s = tick s := by simp only [step, hp]
    rw [← htick, ht] at h
    cases h
  · exact fun hp => if_neg hp

/-- Settles O52, by induction on the number of steps. -/
theorem haltIsPermanent : Obligations.HaltIsPermanent := by
  intro s hp n
  induction n with
  | zero => rfl
  | succ n ih => rw [core_run_next (step_halted hp), ih]

end Sys2Proof.Proofs
end

section
/-! SUPPORT. What an operation, and then a step, can do to each part of the state: one inversion of the operation, and
each fact about the whole engine from it. -/

namespace Sys2Proof.Proofs

open Sys2Proof.Machine Sys2Proof.Laws

/-- No event of the list is an instruction trace. -/
def NoInstrTrace (evs : List Event) : Prop := ∀ e ∈ evs, ∀ p l b, e ≠ .instrTrace p l b

/-- The state of an ECALL `write` that succeeds (44_system_syscall.md R211). -/
def writeState (s : State) (bytes : List Byte) : State :=
  ((s.traceSyscall.emit (.writeOut (s.x Reg.a0) bytes)).setX Reg.a0 0).nextPc .four

/-- The state of an ECALL `exit` (44_system_syscall.md R213). -/
def exitState (s : State) : State :=
  (({ s.traceSyscall with running := false, halt := .exit } : State).emit
    (.exitDiag (s.x Reg.a0) (s.x Reg.a1 == 0))).nextPc .four

/-- A byte-range read fails with the load address fault alone (20_memory.md R63). -/
theorem readBytes_error_code {s : State} {a : Word} {len : Nat} {f : Fault} (h : s.readBytes a len = .error f) :
    f.code = 1 := by
  rcases readBytes_cases s a len with ⟨_, e⟩ | ⟨_, _, _, e⟩ | ⟨_, _, e⟩
  · obtain rfl := Except.error.inj (e.symm.trans h)
    rfl
  · obtain rfl := Except.error.inj (e.symm.trans h)
    rfl
  · cases e.symm.trans h

/-- Everything an operation can do, ECALL included: write its destination and the pc, write the pc alone, halt on a
fault, or one of the three endings of a system call. -/
theorem exec_inversion {i : Instr} {s t : State} (h : exec i s = .next t) :
    (∃ rd v p, i ≠ .ecall ∧ Instr.dest i = some rd ∧ t = (s.setX rd v).setPc p) ∨
    (∃ p, i ≠ .ecall ∧ t = s.setPc p) ∨
    (∃ evs f, (i = .ecall → s.x Reg.a7 = sysWriteNum) ∧ (f.code = 1 ∨ f.code = 3) ∧ NoInstrTrace evs ∧
      t = State.haltWith { s with log := s.log ++ evs } (.fault f)) ∨
    (∃ bytes, i = .ecall ∧ s.x Reg.a7 = sysWriteNum ∧ t = writeState s bytes) ∨
    (i = .ecall ∧ s.x Reg.a7 = sysExitNum ∧ t = exitState s) ∨
    (i = .ecall ∧ s.x Reg.a7 ≠ sysExitNum ∧ t = s.traceSyscall.nextPc .four) := by
  rcases exec_cases i s with ⟨rd, v, p, hd, hne, e⟩ | ⟨p, _, hne, e⟩ | ⟨rs1, imm, f, hne, hf, e⟩ | rfl
  · exact .inl ⟨rd, v, p, hne, hd, Host.Outcome.next.inj (h.symm.trans e)⟩
  · exact .inr (.inl ⟨p, hne, Host.Outcome.next.inj (h.symm.trans e)⟩)
  · refine .inr (.inr (.inl ⟨[], f, fun hi => absurd hi hne, ?_, nofun, ?_⟩))
    · rcases hf with rfl | rfl
      exacts [.inr rfl, .inl rfl]
    · rw [emitted_nil]
      exact Host.Outcome.next.inj (h.symm.trans e)
  · rcases ecall_cases s with ⟨bytes, hw, _, e⟩ | ⟨f, hw, hf, e⟩ | ⟨hexit, e⟩ | ⟨_, hne, e⟩ <;>
      replace e := Host.Outcome.next.inj (h.symm.trans e)
    · exact .inr (.inr (.inr (.inl ⟨bytes, rfl, hw, e⟩)))
    · refine .inr (.inr (.inl ⟨[.syscallTrace s.syscallNum s.syscallArgs], f, fun _ => hw,
        .inl (readBytes_error_code hf), ?_, e⟩))
      simp [NoInstrTrace]
    · exact .inr (.inr (.inr (.inr (.inl ⟨rfl, hexit, e⟩))))
    · exact .inr (.inr (.inr (.inr (.inr ⟨rfl, hne, e⟩))))

/-! ### Memory, the floating-point file, the debug flag, the parameters and the log -/

/-- What no operation writes (10_state.md R27, R31; 20_memory.md R74). -/
theorem exec_keeps {i : Instr} {s t : State} (h : exec i s = .next t) :
    t.buf = s.buf ∧ t.fpr = s.fpr ∧ t.debug = s.debug ∧ t.cfg = s.cfg := by
  rcases exec_inversion h with ⟨rd, v, p, _, _, rfl⟩ | ⟨p, _, rfl⟩ | ⟨evs, f, _, _, _, rfl⟩ | ⟨bytes, _, _, rfl⟩ |
    ⟨_, _, rfl⟩ | ⟨_, _, rfl⟩
  · simp
  · simp
  · simp
  · simp [writeState, State.traceSyscall]
  · simp [exitState, State.traceSyscall]
  · simp [State.traceSyscall]

theorem step_keeps {s t : State} (h : step s = .next t) :
    t.buf = s.buf ∧ t.fpr = s.fpr ∧ t.debug = s.debug ∧ t.cfg = s.cfg := by
  rcases step_cases h with ⟨_, rfl⟩ | ⟨_, rfl⟩ | ⟨f, _, _, rfl⟩ | ⟨d, _, _, _, rfl⟩ | ⟨d, _, _, _, rfl⟩ |
    ⟨d, i, _, _, _, he⟩
  · simp
  · simp
  · simp
  · simp
  · simp
  · simpa using exec_keeps he

/-- Settles O48: the raw parts a step keeps are what memory and the floating-point file are read from. -/
theorem stepKeeps : Obligations.StepKeeps := by
  intro s t h
  obtain ⟨hbuf, hfpr, hdebug, hcfg⟩ := step_keeps h
  exact ⟨byteAt_congr hcfg hbuf, f_congr hfpr, hdebug, hcfg⟩

/-- An operation only adds to the log, and never an instruction trace (10_state.md R33, 40_fetch_engine.md R140). -/
theorem exec_log {i : Instr} {s t : State} (h : exec i s = .next t) :
    ∃ evs, t.log = s.log ++ evs ∧ NoInstrTrace evs := by
  rcases exec_inversion h with ⟨rd, v, p, _, _, rfl⟩ | ⟨p, _, rfl⟩ | ⟨evs, f, _, _, hevs, rfl⟩ | ⟨bytes, _, _, rfl⟩ |
    ⟨_, _, rfl⟩ | ⟨_, _, rfl⟩
  · exact ⟨[], by simp, nofun⟩
  · exact ⟨[], by simp, nofun⟩
  · refine ⟨evs ++ [.haltReport (.fault f)], by simp, ?_⟩
    simpa [NoInstrTrace, or_imp, forall_and] using hevs
  · exact ⟨[.syscallTrace s.syscallNum s.syscallArgs, .writeOut (s.x Reg.a0) bytes],
      by simp [writeState, State.traceSyscall], by simp [NoInstrTrace]⟩
  · exact ⟨[.syscallTrace s.syscallNum s.syscallArgs, .exitDiag (s.x Reg.a0) (s.x Reg.a1 == 0)],
      by simp [exitState, State.traceSyscall], by simp [NoInstrTrace]⟩
  · exact ⟨[.syscallTrace s.syscallNum s.syscallArgs], by simp [State.traceSyscall], by simp [NoInstrTrace]⟩

/-- Settles O53: every case of a step appends, the operation's own events after the trace. -/
theorem logAppendOnly : Obligations.LogAppendOnly := by
  intro s t h
  rcases step_cases h with ⟨_, rfl⟩ | ⟨_, rfl⟩ | ⟨f, _, _, rfl⟩ | ⟨d, _, _, _, rfl⟩ | ⟨d, _, _, _, rfl⟩ |
    ⟨d, i, _, _, _, he⟩
  · exact ⟨[], by simp⟩
  · exact ⟨[], by simp⟩
  · exact ⟨_, haltWith_log _ _⟩
  · exact ⟨_, haltWith_log _ _⟩
  · exact ⟨_, by rw [haltWith_log, traceInstr_log, List.append_assoc]⟩
  · obtain ⟨evs, hlog, _⟩ := exec_log he
    exact ⟨_, by rw [hlog, traceInstr_log, List.append_assoc]⟩

/-- Settles O26: the trace event comes first, and neither the halt report nor an operation adds another. -/
theorem traceEvent : Obligations.TraceEvent := by
  intro s d hp hf hne
  cases hd : decode s.cfg d.len d.bits with
  | illegal => exact absurd hd hne
  | unimplemented =>
    refine ⟨_, [.haltReport (.unimplemented d.bits s.pc)], step_unimplemented hp hf hd, ?_, by simp⟩
    rw [haltWith_log, traceInstr_log]
  | op i =>
    obtain ⟨t, ht⟩ := exec_answers i (s.traceInstr d)
    obtain ⟨evs, hlog, hevs⟩ := exec_log ht
    exact ⟨t, evs, (step_op hp hf hd).trans ht, by rw [hlog, traceInstr_log], hevs⟩

/-! ### The registers -/

theorem setX_x_changed {s : State} {rd r : Reg} {v : Word} (h : (s.setX rd v).x r ≠ s.x r) : r = rd ∧ r ≠ 0 := by
  rw [setX_x] at h
  split at h
  next hr => exact ⟨hr.1, hr.1 ▸ hr.2⟩
  next => exact absurd rfl h

/-- An operation changes no register but its destination (10_state.md R23, 44_system_syscall.md R210). -/
theorem exec_writes {i : Instr} {s t : State} {r : Reg} (h : exec i s = .next t) (hr : t.x r ≠ s.x r) :
    Instr.dest i = some r ∧ r ≠ 0 ∧ (i = .ecall → s.x Reg.a7 = sysWriteNum) := by
  rcases exec_inversion h with ⟨rd, v, p, hne, hd, rfl⟩ | ⟨p, _, rfl⟩ | ⟨evs, f, _, _, _, rfl⟩ | ⟨bytes, rfl, hw, rfl⟩ |
    ⟨_, _, rfl⟩ | ⟨_, _, rfl⟩
  · obtain ⟨rfl, h0⟩ := setX_x_changed hr
    exact ⟨hd, h0, fun hi => absurd hi hne⟩
  · exact absurd rfl hr
  · exact absurd rfl hr
  · obtain ⟨rfl, h0⟩ := setX_x_changed (s := s.traceSyscall.emit (.writeOut (s.x Reg.a0) bytes)) hr
    exact ⟨rfl, h0, fun _ => hw⟩
  · exact absurd rfl hr
  · exact absurd rfl hr

theorem toNat_of_sysWriteNum {v : Word} (h : v = sysWriteNum) : v.toNat = 64 := by
  rw [h]
  rfl

/-- Settles O49: the halts of a step change no register, and an operation its destination alone. -/
theorem registerWriters : Obligations.RegisterWriters := by
  intro s t r h hr
  rcases step_cases h with ⟨_, rfl⟩ | ⟨_, rfl⟩ | ⟨f, _, _, rfl⟩ | ⟨d, _, _, _, rfl⟩ | ⟨d, _, _, _, rfl⟩ |
    ⟨d, i, hp, hf, hd, he⟩
  · exact absurd rfl hr
  · exact absurd rfl hr
  · exact absurd rfl hr
  · exact absurd rfl hr
  · exact absurd (traceInstr_x s r d) hr
  · rw [← traceInstr_x s r d] at hr
    obtain ⟨hdest, h0, hecall⟩ := exec_writes he hr
    rw [traceInstr_x] at hecall
    exact ⟨hp, d, i, hf, hd, hdest, h0, fun hi => toNat_of_sysWriteNum (hecall hi)⟩

/-! ### The halt -/

/-- An operation goes on, or halts on a fault, or is the ECALL that exits. -/
theorem exec_halt {i : Instr} {s t : State} (h : exec i s = .next t) :
    (t.running = s.running ∧ t.halt = s.halt ∧ ¬(i = .ecall ∧ s.x Reg.a7 = sysExitNum)) ∨
    (∃ evs f, (f.code = 1 ∨ f.code = 3) ∧ t = State.haltWith { s with log := s.log ++ evs } (.fault f) ∧
      ¬(i = .ecall ∧ s.x Reg.a7 = sysExitNum)) ∨
    (t.running = false ∧ t.halt = .exit ∧ i = .ecall ∧ s.x Reg.a7 = sysExitNum) := by
  have write_ne_exit : s.x Reg.a7 = sysWriteNum → s.x Reg.a7 ≠ sysExitNum := fun hw he =>
    absurd (hw.symm.trans he) (by decide)
  rcases exec_inversion h with ⟨rd, v, p, hne, _, rfl⟩ | ⟨p, hne, rfl⟩ | ⟨evs, f, hw, hf, _, rfl⟩ |
    ⟨bytes, _, hw, rfl⟩ | ⟨hi, hexit, rfl⟩ | ⟨_, hne, rfl⟩
  · exact .inl ⟨setX_running s rd v, setX_halt s rd v, fun hi => hne hi.1⟩
  · exact .inl ⟨rfl, rfl, fun hi => hne hi.1⟩
  · exact .inr (.inl ⟨evs, f, hf, rfl, fun hi => write_ne_exit (hw hi.1) hi.2⟩)
  · exact .inl ⟨setX_running _ _ _, setX_halt _ _ _, fun hi => write_ne_exit hw hi.2⟩
  · exact .inr (.inr ⟨rfl, rfl, hi, hexit⟩)
  · exact .inl ⟨rfl, rfl, fun hi => hne hi.2⟩

/-- The instruction at the pc is an ECALL that exits (44_system_syscall.md R213). -/
def ExitsNext (s : State) : Prop :=
  ∃ d, s.fetch = .ok d ∧ decode s.cfg d.len d.bits = .op .ecall ∧ s.x Reg.a7 = sysExitNum

theorem not_exitsNext_of_error {s : State} {f : Fault} (hf : s.fetch = .error f) : ¬ExitsNext s := by
  rintro ⟨d, hd, _⟩
  cases hf.symm.trans hd

theorem exitsNext_iff {s : State} {d : Fetched} (hf : s.fetch = .ok d) :
    ExitsNext s ↔ decode s.cfg d.len d.bits = .op .ecall ∧ s.x Reg.a7 = sysExitNum := by
  constructor
  · rintro ⟨d', hd', hdec, hexit⟩
    obtain rfl := Except.ok.inj (hf.symm.trans hd')
    exact ⟨hdec, hexit⟩
  · exact fun h => ⟨d, hf, h⟩

theorem exitsNext_op_iff {s : State} {d : Fetched} {i : Instr} (hf : s.fetch = .ok d)
    (hd : decode s.cfg d.len d.bits = .op i) : ExitsNext s ↔ i = .ecall ∧ s.x Reg.a7 = sysExitNum := by
  rw [exitsNext_iff hf, hd, Decoded.op.injEq]

theorem fetch_error_code {s : State} {f : Fault} (h : s.fetch = .error f) : f.code = 1 ∨ f.code = 3 ∨ f.code = 5 := by
  rcases fetch_error h with rfl | rfl | ⟨_, rfl⟩ | rfl | rfl <;> simp [Fault.code]

/-- The step has halted the engine after `evs`, on a fault of a delivered kind or on an unimplemented operation. -/
def StoppedAfter (evs : List Event) (k : Halt) (s t : State) : Prop :=
  t = State.haltWith { s with log := s.log ++ evs } k ∧ k ≠ .none ∧ k ≠ .exit ∧
    ∀ f, k = .fault f → f.code = 1 ∨ f.code = 3 ∨ f.code = 5

theorem stoppedAfter_fault {s t : State} {evs : List Event} {f : Fault}
    (ht : t = State.haltWith { s with log := s.log ++ evs } (.fault f)) (hf : f.code = 1 ∨ f.code = 3 ∨ f.code = 5) :
    StoppedAfter evs (.fault f) s t := by
  refine ⟨ht, nofun, nofun, ?_⟩
  rintro _ ⟨⟩
  exact hf

/-- How a step of the running engine ends: it goes on, stops, or is the ECALL that exits (40_fetch_engine.md R145). -/
theorem step_halt {s t : State} (hp : s.phase = .running) (h : step s = .next t) :
    (t.running = true ∧ t.halt = s.halt ∧ ¬ExitsNext s) ∨
    (∃ evs k, StoppedAfter evs k s t ∧ ¬ExitsNext s) ∨
    (t.running = false ∧ t.halt = .exit ∧ ExitsNext s) := by
  rcases step_cases h with ⟨hidle, _⟩ | ⟨hhalted, _⟩ | ⟨f, _, hf, rfl⟩ | ⟨d, _, hf, hd, rfl⟩ | ⟨d, _, hf, hd, rfl⟩ |
    ⟨d, i, _, hf, hd, he⟩
  · cases hp.symm.trans hidle
  · cases hp.symm.trans hhalted
  · exact .inr (.inl ⟨[], _, stoppedAfter_fault (by rw [emitted_nil]) (fetch_error_code hf),
      not_exitsNext_of_error hf⟩)
  · refine .inr (.inl ⟨[], _, stoppedAfter_fault (by rw [emitted_nil]) (.inr (.inr rfl)), ?_⟩)
    simp [exitsNext_iff hf, hd]
  · refine .inr (.inl ⟨traceEvents s d, .unimplemented d.bits s.pc,
      ⟨by rw [← traceInstr_emitted], nofun, nofun, nofun⟩, ?_⟩)
    simp [exitsNext_iff hf, hd]
  · have hrun := (phase_running s).1 hp
    rw [exitsNext_op_iff hf hd, ← traceInstr_x s Reg.a7 d]
    rcases exec_halt he with ⟨hrun', hhalt, hne⟩ | ⟨evs, f, hcode, ht, hne⟩ | ⟨hrun', hhalt, hexit⟩
    · exact .inl ⟨by rw [hrun', traceInstr_running, hrun], by rw [hhalt, traceInstr_halt], hne⟩
    · refine .inr (.inl ⟨traceEvents s d ++ evs, .fault f, stoppedAfter_fault ?_ ?_, hne⟩)
      · rw [ht, traceInstr_emitted, List.append_assoc]
      · exact hcode.imp_right .inl
    · exact .inr (.inr ⟨hrun', hhalt, hexit⟩)

/-- A running engine that meets the invariant has no halt record yet. -/
theorem halt_none_of_running {s : State} (h : s.Inv) (hp : s.phase = .running) : s.halt = .none :=
  h.runningNone ((phase_running s).1 hp)

/-- Settles O46: the record was `none`, so the step stopped, and a stop changes only the halt and the log. -/
theorem faultsArePrecise : Obligations.FaultsArePrecise := by
  intro s t f hinv hp h hf
  rcases step_halt hp h with ⟨_, hhalt, _⟩ | ⟨evs, k, ⟨rfl, _⟩, _⟩ | ⟨_, hhalt, _⟩
  · rw [halt_none_of_running hinv hp, hf] at hhalt
    cases hhalt
  · rw [haltWith_halt] at hf
    subst hf
    exact ⟨evs, haltedOn_emitted s evs _⟩
  · cases hf.symm.trans hhalt

/-- Settles O47: a fault that the record did not hold came with the step's stop. -/
theorem deliveredFaults : Obligations.DeliveredFaults := by
  intro s t f hp h hf hne
  rcases step_halt hp h with ⟨_, hhalt, _⟩ | ⟨evs, k, ⟨rfl, _, _, hcode⟩, _⟩ | ⟨_, hhalt, _⟩
  · exact absurd (hhalt.symm.trans hf) hne
  · exact hcode f hf
  · cases hf.symm.trans hhalt

/-- Settles O50: the three endings of a running step, and the steps of the idle and the halted engine. -/
theorem phaseTransitions : Obligations.PhaseTransitions := by
  intro s t hinv h
  refine ⟨fun hidle => ?_, fun hp => ?_, fun hhalted => ?_⟩
  · obtain rfl := Host.Outcome.next.inj (h.symm.trans (step_idle hidle))
    exact ⟨(phase_running _).2 rfl, rfl⟩
  · rcases step_halt hp h with ⟨hrun, hhalt, _⟩ | ⟨evs, k, ⟨rfl, hnone, _⟩, _⟩ | ⟨hrun, hhalt, _⟩
    · exact .inl ⟨(phase_running t).2 hrun, hhalt.trans (halt_none_of_running hinv hp)⟩
    · exact .inr ⟨(phase_halted _).2 ⟨rfl, hnone⟩, hnone⟩
    · have hne : t.halt ≠ .none := by simp [hhalt]
      exact .inr ⟨(phase_halted t).2 ⟨hrun, hne⟩, hne⟩
  · exact Host.Outcome.next.inj (h.symm.trans (step_halted hhalted))

theorem toNat_eq_exit_iff (v : Word) : v.toNat = 93 ↔ v = sysExitNum :=
  BitVec.toNat_inj (y := sysExitNum)

/-- Settles O51: of the three endings of a running step, only the ECALL that exits leaves `Exit`. -/
theorem exitOnlyByEcall : Obligations.ExitOnlyByEcall := by
  intro s t hinv hp h
  have hexits : ExitsNext s ↔ (s.x 17).toNat = 93 ∧ ∃ d, s.fetch = .ok d ∧ decode s.cfg d.len d.bits = .op .ecall := by
    rw [toNat_eq_exit_iff]
    exact ⟨fun ⟨d, hf, hd, hx⟩ => ⟨hx, d, hf, hd⟩, fun ⟨hx, d, hf, hd⟩ => ⟨d, hf, hd, hx⟩⟩
  rw [← hexits]
  rcases step_halt hp h with ⟨_, hhalt, hno⟩ | ⟨evs, k, ⟨rfl, _, hexit, _⟩, hno⟩ | ⟨_, hhalt, hyes⟩
  · have hne : t.halt ≠ .exit := by simp [hhalt, halt_none_of_running hinv hp]
    exact iff_of_false hne hno
  · exact iff_of_false hexit hno
  · exact iff_of_true hhalt hyes

/-! ### The pc -/

theorem writeResult_pc {rd : Reg} {v : Word} {s t : State} (h : writeResult rd v s = .next t) :
    t.pc = trunc s.cfg.xlen (s.pc + 4#64) := by
  obtain rfl := Host.Outcome.next.inj h
  rw [nextPc_pc, setX_cfg, setX_pc]
  rfl

theorem loadTo_pc {rd : Reg} {a : Word} {w : Width} {s t : State} (h : loadTo rd a w s = .next t) :
    (t.pc = s.pc ∧ ∃ f, t.halt = .fault f) ∨ t.pc = trunc s.cfg.xlen (s.pc + 4#64) := by
  rcases loadTo_cases rd a w s with ⟨v, _, e⟩ | ⟨_, e⟩ | ⟨_, _, e⟩
  · exact .inr (writeResult_pc (e.symm.trans h))
  · obtain rfl := Host.Outcome.next.inj (e.symm.trans h)
    exact .inl ⟨rfl, _, rfl⟩
  · obtain rfl := Host.Outcome.next.inj (e.symm.trans h)
    exact .inl ⟨rfl, _, rfl⟩

theorem ecall_pc {s t : State} (h : exec .ecall s = .next t) :
    (t.pc = s.pc ∧ ∃ f, t.halt = .fault f) ∨ t.pc = trunc s.cfg.xlen (s.pc + 4#64) := by
  rcases ecall_cases s with ⟨bytes, _, _, e⟩ | ⟨f, _, hf, e⟩ | ⟨_, e⟩ | ⟨_, _, e⟩
  · exact .inr (writeResult_pc (s := s.traceSyscall.emit (.writeOut (s.x Reg.a0) bytes)) (e.symm.trans h))
  · obtain rfl := Host.Outcome.next.inj (e.symm.trans h)
    exact .inl ⟨rfl, f, rfl⟩
  · obtain rfl := Host.Outcome.next.inj (e.symm.trans h)
    exact .inr rfl
  · obtain rfl := Host.Outcome.next.inj (e.symm.trans h)
    exact .inr rfl

/-- Where an operation leaves the pc: at the instruction where it faults, past it, or at the target it sets itself
(40_fetch_engine.md R143, R144). -/
theorem exec_pc {i : Instr} {s t : State} (h : exec i s = .next t) :
    (t.pc = s.pc ∧ ∃ f, t.halt = .fault f) ∨ t.pc = trunc s.cfg.xlen (s.pc + 4#64) ∨
    (∃ rd imm, i = .jal rd imm ∧ t.pc = trunc s.cfg.xlen (s.pc + s.immJ imm)) ∨
    (∃ rd rs1 imm, i = .jalr rd rs1 imm) ∨
    (∃ rs1 rs2 imm, i = .bne rs1 rs2 imm ∧ t.pc = trunc s.cfg.xlen (s.pc + s.immB imm)) := by
  cases i with
  | add rd rs1 rs2 => exact .inr (.inl (writeResult_pc h))
  | sub rd rs1 rs2 => exact .inr (.inl (writeResult_pc h))
  | slli rd rs1 shamt => exact .inr (.inl (writeResult_pc h))
  | addi rd rs1 imm => exact .inr (.inl (writeResult_pc h))
  | auipc rd imm => exact .inr (.inl (writeResult_pc h))
  | lb rd rs1 imm => exact (loadTo_pc h).imp_right .inl
  | lw rd rs1 imm => exact (loadTo_pc h).imp_right .inl
  | jal rd imm =>
    obtain rfl := Host.Outcome.next.inj h
    exact .inr (.inr (.inl ⟨rd, imm, rfl, by rw [setPc_pc, setX_cfg]⟩))
  | jalr rd rs1 imm => exact .inr (.inr (.inr (.inl ⟨rd, rs1, imm, rfl⟩)))
  | bne rs1 rs2 imm =>
    simp only [exec, execBne] at h
    split at h <;> obtain rfl := Host.Outcome.next.inj h
    · exact .inr (.inr (.inr (.inr ⟨rs1, rs2, imm, rfl, rfl⟩)))
    · exact .inr (.inl rfl)
  | ecall => exact (ecall_pc h).imp_right .inl

/-- Settles O54: an operation is four bytes long, and the other ways to leave the pc are excluded. -/
theorem genericPostIncrement : Obligations.GenericPostIncrement := by
  intro s t d i _ hp hf hd h hfault hjal hjalr hbne
  obtain ⟨hlen, _⟩ := (decode_op_iff _ _ _ _).1 hd
  rw [step_op hp hf hd] at h
  rcases exec_pc h with ⟨_, f, hf⟩ | hpc | ⟨rd, imm, rfl, _⟩ | ⟨rd, rs1, imm, rfl⟩ | ⟨rs1, rs2, imm, rfl, _⟩
  · exact absurd hf (hfault f)
  · rw [hpc, traceInstr_cfg, traceInstr_pc, toNat_trunc_add, hlen]
    rfl
  · exact absurd rfl (hjal rd imm)
  · exact absurd rfl (hjalr rd rs1 imm)
  · exact absurd rfl (hbne rs1 rs2 imm)

theorem trunc_even {x : Xlen} {v : Word} (h : v.toNat % 2 = 0) : (trunc x v).toNat % 2 = 0 := by
  rw [toNat_trunc]
  cases x <;> simp only [Xlen.bits] <;> omega

theorem add_even {a b : Word} (ha : a.toNat % 2 = 0) (hb : b.toNat % 2 = 0) : (a + b).toNat % 2 = 0 := by
  rw [BitVec.toNat_add]
  omega

/-- A jump by an even offset from an even pc lands on an even address (43_control.md R194). -/
theorem target_even (x : Xlen) {pc : Word} (hpc : pc.toNat % 2 = 0) {n : Nat} (hn : 0 < n) {v : BitVec n}
    (h : v.getLsbD 0 = false) : (trunc x (pc + sext x v)).toNat % 2 = 0 := by
  have hbit : (v.signExtend 64).getLsbD 0 = false := by
    rw [BitVec.getLsbD_signExtend, if_pos hn, h]
    rfl
  rw [← BitVec.testBit_toNat, Nat.testBit_zero] at hbit
  have hext := of_decide_eq_false hbit
  exact trunc_even (add_even hpc (trunc_even (by omega)))

/-- Settles O55: the fetched pc is even, and so are 4 and every offset of a decoded jump or branch. -/
theorem onlyJalrMakesPcOdd : Obligations.OnlyJalrMakesPcOdd := by
  intro s t d i hp hf hd h hodd
  have hwf := wf_of_decodeRow ((decode_op_iff _ _ _ _).1 hd).2
  have hpc0 : (s.traceInstr d).pc.toNat % 2 = 0 := by
    rw [traceInstr_pc]
    exact (fetch_ok hf).1
  have not_even : ¬t.pc.toNat % 2 = 0 := by omega
  rw [step_op hp hf hd] at h
  rcases exec_pc h with ⟨hpc, _⟩ | hpc | ⟨rd, imm, rfl, hpc⟩ | hjalr | ⟨rs1, rs2, imm, rfl, hpc⟩
  · exact absurd (hpc ▸ hpc0) not_even
  · exact absurd (hpc ▸ trunc_even (add_even hpc0 rfl)) not_even
  · have hoff : imm.getLsbD 0 = false := by simpa [Instr.wf] using hwf
    exact absurd (hpc ▸ target_even _ hpc0 (by decide) hoff) not_even
  · exact hjalr
  · have hoff : imm.getLsbD 0 = false := by simpa [Instr.wf] using hwf
    exact absurd (hpc ▸ target_even _ hpc0 (by decide) hoff) not_even

end Sys2Proof.Proofs
end

section
/-! SUPPORT. The rules of the instructions: encoding, result, pc and frame (41_integer.md, 42_loads.md,
43_control.md). -/

namespace Sys2Proof.Proofs

open Sys2Proof.Machine Sys2Proof.Laws

/-! ### The common shapes -/

/-- Everything a register-writing instruction that falls through does (41_integer.md R165, R166). -/
theorem setX_nextPc_rule (s : State) (rd : Reg) (v : Word) :
    (rd ≠ 0 → ((s.setX rd v).nextPc .four).x rd = trunc s.cfg.xlen v) ∧
      (rd = 0 → SameRegs s ((s.setX rd v).nextPc .four)) ∧ Advanced s ((s.setX rd v).nextPc .four) ∧
      OnlyRegAndPc rd s ((s.setX rd v).nextPc .four) := by
  refine ⟨fun h => setX_x_same s h v, ?_, advanced_setX_nextPc s rd v, onlyRegAndPc_setX_setPc s rd v _⟩
  rintro rfl
  exact sameRegs_setX_zero_setPc s v _

/-- Everything a jump that links does (43_control.md R190, R191). -/
theorem link_setPc_rule (s : State) (rd : Reg) (p : Word) :
    (rd ≠ 0 → (((s.setX rd s.link).setPc p).x rd).toNat = (s.pc.toNat + 4) % s.modulus) ∧
      (rd = 0 → SameRegs s ((s.setX rd s.link).setPc p)) ∧
      ((s.setX rd s.link).setPc p).pc = trunc s.cfg.xlen p ∧ OnlyRegAndPc rd s ((s.setX rd s.link).setPc p) := by
  refine ⟨fun h => ?_, ?_, by rw [setPc_pc, setX_cfg], onlyRegAndPc_setX_setPc s rd _ p⟩
  · rw [setPc_x, setX_x_same s h, State.link, toNat_trunc_add]
    rfl
  · rintro rfl
    exact sameRegs_setX_zero_setPc s _ p

/-! ### Integer arithmetic -/

/-- Settles O27: the common shape with the sum of the two registers. -/
theorem addRule : Obligations.AddRule := by
  refine ⟨fun c w h => decode_of_decodeRow c (decodeRow_add ((selects_iff _ _).2 h)), fun s rd rs1 rs2 => ?_⟩
  obtain ⟨hx, hframe⟩ := setX_nextPc_rule s rd (s.x rs1 + s.x rs2)
  exact ⟨_, rfl, fun h => by rw [hx h, toNat_trunc_add]; rfl, hframe⟩

/-- Settles O28: the common shape with the difference of the two registers. -/
theorem subRule : Obligations.SubRule := by
  refine ⟨fun c w h => decode_of_decodeRow c (decodeRow_sub ((selects_iff _ _).2 h)), fun s rd rs1 rs2 => ?_⟩
  obtain ⟨hx, hframe⟩ := setX_nextPc_rule s rd (s.x rs1 - s.x rs2)
  exact ⟨_, rfl, fun h => by rw [hx h, toNat_trunc_sub]; rfl, hframe⟩

/-- At XLEN = 32 the shift amount is the five bits of `word[24:20]` (30_encoding.md R99). -/
theorem shamtOf_rv32 {w : BitVec 32} (h : (rowSlli .rv32).selects w = true) :
    (shamtOf w).toNat = (w.extractLsb' 20 5).toNat := by
  have hlt : (shamtOf w).toNat < 32 := shamtOf_lt h
  rw [shamtOf, BitVec.extractLsb'_toNat] at hlt
  rw [shamtOf, BitVec.extractLsb'_toNat, BitVec.extractLsb'_toNat]
  omega

/-- The encodings of SLLI at the two widths (30_encoding.md R99, D14). -/
theorem decode_slli (c : Config) (w : BitVec 32) :
    (c.xlen = .rv64 → w &&& 0xFC00707F#32 = 0x00001013#32 →
      decode c .four w = .op (.slli (rdOf w) (rs1Of w) (shamtOf w))) ∧
    (c.xlen = .rv32 → w &&& 0xFE00707F#32 = 0x00001013#32 →
      decode c .four w = .op (.slli (rdOf w) (rs1Of w) (shamtOf w)) ∧ (shamtOf w).toNat = (w.extractLsb' 20 5).toNat) ∧
    (c.xlen = .rv32 → w &&& 0xFC00707F#32 = 0x00001013#32 → w.getLsbD 25 = true → decode c .four w = .illegal) := by
  have slli_of_selects : ∀ x, c.xlen = x → (rowSlli x).selects w = true →
      decode c .four w = .op (.slli (rdOf w) (rs1Of w) (shamtOf w)) := by
    rintro _ rfl hs
    exact decode_of_decodeRow c (decodeRow_slli hs)
  refine ⟨fun hx h => slli_of_selects _ hx ((selects_iff _ _).2 h), fun hx h => ?_, fun hx h hbit => ?_⟩
  · have hs : (rowSlli .rv32).selects w = true := (selects_iff _ _).2 h
    exact ⟨slli_of_selects _ hx hs, shamtOf_rv32 hs⟩
  · exact decode_reserved hx ((rowReserved_selects_iff w).2 ⟨h, hbit⟩)

/-- Settles O29: the common shape with the shifted register. -/
theorem slliRule : Obligations.SlliRule := by
  refine ⟨decode_slli, fun s rd rs1 shamt => ?_⟩
  obtain ⟨hx, hframe⟩ := setX_nextPc_rule s rd (s.x rs1 <<< shamt.toNat)
  exact ⟨_, rfl, fun h => by rw [hx h, toNat_trunc_shiftLeft]; rfl, hframe⟩

/-- Settles O30: the common shape with the sum of the register and the sign-extended immediate. -/
theorem addiRule : Obligations.AddiRule := by
  refine ⟨fun c w h => decode_of_decodeRow c (decodeRow_addi ((selects_iff _ _).2 h)), fun s rd rs1 imm => ?_⟩
  obtain ⟨hx, hframe⟩ := setX_nextPc_rule s rd (s.x rs1 + s.immI imm)
  exact ⟨_, rfl, fun h => by rw [hx h, State.immI, toNat_trunc_add_sext _ _ (by decide)]; rfl, hframe⟩

/-- Settles O31: the common shape with the sum of the pc and the shifted immediate. -/
theorem auipcRule : Obligations.AuipcRule := by
  refine ⟨fun c w h => decode_of_decodeRow c (decodeRow_auipc ((selects_iff _ _).2 h)), fun s rd imm => ?_⟩
  obtain ⟨hx, hframe⟩ := setX_nextPc_rule s rd (s.pc + s.immU imm)
  refine ⟨_, rfl, fun h => ?_, hframe⟩
  rw [hx h, State.immU, toNat_trunc_add_sext _ _ (by decide), BitVec.toInt_append_zero, mul_comm]
  rfl

/-! ### Loads -/

/-- The effective address is the only XLEN-bit number that is the sum (42_loads.md R182). -/
theorem ea_eq_ofNat {s : State} {rs1 : Reg} {imm : BitVec 12} {ea : Nat}
    (h : (ea : Int) = (((s.x rs1).toNat : Int) + imm.toInt) % (s.modulus : Int)) :
    (s.ea rs1 imm).toNat = ea ∧ s.ea rs1 imm = BitVec.ofNat 64 ea := by
  have hsum : ((s.ea rs1 imm).toNat : Int) = ea := (toNat_trunc_add_sext _ _ (by decide) imm).trans h.symm
  have hnat : (s.ea rs1 imm).toNat = ea := Int.ofNat.inj hsum
  exact ⟨hnat, by rw [← hnat, BitVec.ofNat_toNat, BitVec.setWidth_eq]⟩

/-- Everything a load that does not fault does (42_loads.md R180, R181). -/
theorem loadTo_in (s : State) (rd : Reg) (a : Word) (w : Width) (ha : a.toNat % w.bytes = 0)
    (hlo : s.cfg.base ≤ a.toNat) (hhi : a.toNat + w.bytes - 1 ≤ s.cfg.top) :
    ∃ t v, loadTo rd a w s = .next t ∧ s.memRead a w = .ok v ∧ (rd ≠ 0 → t.x rd = zext s.cfg.xlen v) ∧
      (rd = 0 → SameRegs s t) ∧ Advanced s t ∧ OnlyRegAndPc rd s t := by
  obtain ⟨v, hread⟩ : ∃ v, s.memRead a w = .ok v := ⟨_, memRead_in ha hlo hhi⟩
  obtain ⟨hx, hframe⟩ := setX_nextPc_rule s rd (zext s.cfg.xlen v)
  refine ⟨_, v, ?_, hread, fun h => ?_, hframe⟩
  · rw [loadTo, hread]
  · rw [hx h, zext, trunc_trunc]

theorem loadTo_misaligned (s : State) (rd : Reg) {a : Word} {w : Width} (ha : a.toNat % w.bytes ≠ 0) :
    ∃ t, loadTo rd a w s = .next t ∧ HaltedOn (.fault (.unalignedAccess a)) [] s t := by
  refine ⟨_, ?_, haltedOn_haltWith s _⟩
  rw [loadTo, memRead_misaligned ha]
  rfl

theorem loadTo_out (s : State) (rd : Reg) {a : Word} {w : Width} (ha : a.toNat % w.bytes = 0)
    (ho : a.toNat < s.cfg.base ∨ s.cfg.top < a.toNat + w.bytes - 1) :
    ∃ t, loadTo rd a w s = .next t ∧ HaltedOn (.fault (.loadAddressFault a)) [] s t := by
  refine ⟨_, ?_, haltedOn_haltWith s _⟩
  rw [loadTo, memRead_out ha ho]
  rfl

/-- Settles O32: one byte is always aligned, and its zero extension is its value. -/
theorem lbRule : Obligations.LbRule := by
  refine ⟨fun c w h => decode_of_decodeRow c (decodeRow_lb ((selects_iff _ _).2 h)), fun s rd rs1 imm ea hea => ?_⟩
  obtain ⟨rfl, hword⟩ := ea_eq_ofNat hea
  have haligned : (s.ea rs1 imm).toNat % Width.w1.bytes = 0 := Nat.mod_one _
  rw [← hword]
  constructor
  · rintro ⟨hlo, hhi⟩
    obtain ⟨t, v, ht, hread, hx, hframe⟩ := loadTo_in s rd (s.ea rs1 imm) .w1 haligned hlo hhi
    refine ⟨t, _, ht, memRead_byte hread (k := 0) (by decide), fun h => ?_, hframe⟩
    have hbits : 8 * Width.w1.bytes ≤ s.cfg.xlen.bits := by cases s.cfg.xlen <;> decide
    rw [hx h, zext_eq hbits, BitVec.extractLsb'_toNat]
    exact (Nat.mod_eq_of_lt v.isLt).symm
  · intro hout
    refine loadTo_out s rd haligned ?_
    simp only [Width.bytes]
    omega

theorem bytes_width (x : Xlen) : x.width.bytes = x.bits / 8 := by cases x <;> rfl

/-- Settles O33: the machine word's bytes are the loaded value's, and its zero extension keeps them. -/
theorem lwRule : Obligations.LwRule := by
  refine ⟨fun c w h => decode_of_decodeRow c (decodeRow_lw ((selects_iff _ _).2 h)), fun s rd rs1 imm ea hea => ?_⟩
  obtain ⟨rfl, hword⟩ := ea_eq_ofNat hea
  rw [← hword, ← bytes_width]
  refine ⟨fun ha hlo hhi => ?_, fun ha => loadTo_misaligned s rd ha, fun ha ho => loadTo_out s rd ha ho⟩
  obtain ⟨t, v, ht, hread, hx, hframe⟩ := loadTo_in s rd _ _ ha hlo hhi
  refine ⟨t, ht, fun h => ⟨?_, fun k hk => ?_⟩, hframe⟩
  · rw [hx h]
    exact trunc_lt _ _
  · have hbits : 8 * s.cfg.xlen.width.bytes ≤ s.cfg.xlen.bits := by cases s.cfg.xlen <;> decide
    rw [memRead_byte hread hk, hx h]
    congr 1
    apply BitVec.eq_of_toNat_eq
    rw [BitVec.extractLsb'_toNat, BitVec.extractLsb'_toNat, zext_eq hbits]

/-! ### Control transfer -/

/-- Settles O34: the linking jump to the pc plus the offset. -/
theorem jalRule : Obligations.JalRule := by
  refine ⟨fun c w h => decode_of_decodeRow c (decodeRow_jal ((selects_iff _ _).2 h)), fun s rd imm => ?_⟩
  obtain ⟨hx, h0, hpc, hframe⟩ := link_setPc_rule s rd (s.pc + s.immJ imm)
  exact ⟨_, rfl, hx, h0, by rw [hpc, State.immJ, toNat_trunc_add_sext _ _ (by decide)]; rfl, hframe⟩

/-- Settles O35: the linking jump to the old register plus the immediate. -/
theorem jalrRule : Obligations.JalrRule := by
  refine ⟨fun c w h => decode_of_decodeRow c (decodeRow_jalr ((selects_iff _ _).2 h)), fun s rd rs1 imm => ?_⟩
  obtain ⟨hx, h0, hpc, hframe⟩ := link_setPc_rule s rd (s.x rs1 + s.immI imm)
  exact ⟨_, rfl, hx, h0, by rw [hpc, State.immI, toNat_trunc_add_sext _ _ (by decide)]; rfl, hframe⟩

/-- Settles O36: either way only the pc is written. -/
theorem bneRule : Obligations.BneRule := by
  refine ⟨fun c w h => decode_of_decodeRow c (decodeRow_bne ((selects_iff _ _).2 h)), fun s rs1 rs2 imm => ?_⟩
  by_cases heq : s.x rs1 = s.x rs2
  · have hexec : exec (.bne rs1 rs2 imm) s = .next (s.nextPc .four) := if_neg (by simp [State.differ, heq])
    exact ⟨_, hexec, fun hne => absurd heq hne, fun _ => advanced_nextPc s, onlyPc_setPc s _⟩
  · have hexec : exec (.bne rs1 rs2 imm) s = .next (s.setPc (s.pc + s.immB imm)) := if_pos (by simp [State.differ, heq])
    refine ⟨_, hexec, fun _ => ?_, fun h => absurd h heq, onlyPc_setPc s _⟩
    rw [setPc_pc, State.immB, toNat_trunc_add_sext _ _ (by decide)]
    rfl

end Sys2Proof.Proofs
end

section
/-! SUPPORT. The endings of a system call (44_system_syscall.md R211 to R214). -/

namespace Sys2Proof.Proofs

open Sys2Proof.Machine

theorem exec_ecall_write {s : State} {bytes : List Byte} (hw : s.x Reg.a7 = sysWriteNum)
    (hr : s.readBytes (s.x Reg.a1) (s.x Reg.a2).toNat = .ok bytes) : exec .ecall s = .next (writeState s bytes) := by
  rcases ecall_cases s with ⟨b, _, hb, e⟩ | ⟨f, _, hb, _⟩ | ⟨hexit, _⟩ | ⟨hne, _⟩
  · obtain rfl := Except.ok.inj (hb.symm.trans hr)
    exact e
  · cases hb.symm.trans hr
  · exact absurd (hw.symm.trans hexit) (by decide)
  · exact absurd hw hne

theorem exec_ecall_fault {s : State} {f : Fault} (hw : s.x Reg.a7 = sysWriteNum)
    (hr : s.readBytes (s.x Reg.a1) (s.x Reg.a2).toNat = .error f) :
    exec .ecall s = .next (s.traceSyscall.haltWith (.fault f)) := by
  rcases ecall_cases s with ⟨b, _, hb, _⟩ | ⟨g, _, hb, e⟩ | ⟨hexit, _⟩ | ⟨hne, _⟩
  · cases hb.symm.trans hr
  · obtain rfl := Except.error.inj (hb.symm.trans hr)
    exact e
  · exact absurd (hw.symm.trans hexit) (by decide)
  · exact absurd hw hne

theorem exec_ecall_exit {s : State} (hexit : s.x Reg.a7 = sysExitNum) : exec .ecall s = .next (exitState s) := by
  rcases ecall_cases s with ⟨_, hw, _⟩ | ⟨_, hw, _⟩ | ⟨_, e⟩ | ⟨_, hne, _⟩
  · exact absurd (hw.symm.trans hexit) (by decide)
  · exact absurd (hw.symm.trans hexit) (by decide)
  · exact e
  · exact absurd hexit hne

theorem exec_ecall_other {s : State} (hw : s.x Reg.a7 ≠ sysWriteNum) (hexit : s.x Reg.a7 ≠ sysExitNum) :
    exec .ecall s = .next (s.traceSyscall.nextPc .four) := by
  rcases ecall_cases s with ⟨_, h, _⟩ | ⟨_, h, _⟩ | ⟨h, _⟩ | ⟨_, _, e⟩
  · exact absurd h hw
  · exact absurd h hw
  · exact absurd h hexit
  · exact e

theorem toNat_eq_write_iff (v : Word) : v.toNat = 64 ↔ v = sysWriteNum :=
  BitVec.toNat_inj (y := sysWriteNum)

/-- A byte-range read in range answers the bytes of memory (20_memory.md R60). -/
theorem readBytes_in {s : State} {a : Word} {len : Nat} (hlo : s.cfg.base ≤ a.toNat)
    (hhi : a.toNat + len ≤ s.cfg.top) :
    ∃ bytes, s.readBytes a len = .ok bytes ∧ bytes.length = len ∧
      ∀ k, k < len → s.byteAt (a.toNat + k) = bytes[k]? := by
  rcases readBytes_cases s a len with ⟨h, _⟩ | ⟨_, _, h, _⟩ | ⟨_, _, e⟩
  · omega
  · omega
  · refine ⟨_, e, Memory.length_readN _ _ _, fun k hk => ?_⟩
    rw [byteAt_in (by omega), List.getElem?_eq_getElem (by simpa using hk), Memory.getElem_readN]
    congr 2
    omega

theorem readBytes_start {s : State} {a : Word} {len : Nat} (h : ¬(s.cfg.base ≤ a.toNat ∧ a.toNat ≤ s.cfg.top)) :
    s.readBytes a len = .error (.loadAddressFault a) := by
  rw [State.readBytes, rangeCheck_start h]

theorem readBytes_end {s : State} {a : Word} {len : Nat} (hlo : s.cfg.base ≤ a.toNat) (hhi : a.toNat ≤ s.cfg.top)
    (hend : s.cfg.top < a.toNat + len) :
    s.readBytes a len = .error (.loadAddressFault (BitVec.ofNat 64 ((a.toNat + len) % s.modulus))) := by
  rw [State.readBytes, rangeCheck_end ⟨hlo, hhi⟩ hend]
  rfl

/-- Settles O11: the three cases of the range check. -/
theorem byteRangeRead : Obligations.ByteRangeRead := fun _ _ _ => ⟨readBytes_start, readBytes_end, readBytes_in⟩

theorem haltedOn_traceSyscall (s : State) (k : Halt) :
    HaltedOn k [.syscallTrace (s.x 17) #v[s.x 10, s.x 11, s.x 12, s.x 13, s.x 14, s.x 15, s.x 16]] s
      (s.traceSyscall.haltWith k) :=
  haltedOn_emitted s _ k

/-- Settles O37: the read of the buffer decides between the two endings of `write`. -/
theorem ecallWrite : Obligations.EcallWrite := by
  rintro s _ hnum rfl
  have hw : s.x Reg.a7 = sysWriteNum := (toNat_eq_write_iff _).1 hnum
  refine ⟨fun hlo hhi => ?_, fun hout => ?_, fun hlo hhi hend => ?_⟩
  · obtain ⟨bytes, hread, hlen, hbytes⟩ := readBytes_in hlo hhi
    refine ⟨_, bytes, exec_ecall_write hw hread, hlen, hbytes, ?_⟩
    obtain ⟨hx, _, hadv, hregs, hfregs, hmem, hcontrol, hlog⟩ :=
      setX_nextPc_rule (s.traceSyscall.emit (.writeOut (s.x Reg.a0) bytes)) Reg.a0 0
    refine ⟨?_, hregs, hfregs, hmem, hcontrol, hadv, ?_⟩
    · have hzero : (0 : Word).toNat < 2 ^ s.cfg.xlen.bits := Nat.two_pow_pos _
      exact (hx (by decide)).trans (trunc_of_lt hzero)
    · exact hlog.trans (by simp; rfl)
  · exact ⟨_, exec_ecall_fault hw (readBytes_start hout), haltedOn_traceSyscall s _⟩
  · exact ⟨_, exec_ecall_fault hw (readBytes_end hlo hhi hend), haltedOn_traceSyscall s _⟩

theorem beq_zero_eq_decide (v : Word) : (v == 0) = decide (v.toNat = 0) := by
  rw [beq_eq_decide]
  exact decide_eq_decide.2 (BitVec.toNat_inj (y := 0)).symm

/-- Settles O38: the state of `exit` is the traced state with the halt, the diagnostic and the next pc. -/
theorem ecallExit : Obligations.EcallExit := by
  intro s hnum
  refine ⟨_, exec_ecall_exit ((toNat_eq_exit_iff _).1 hnum), rfl, rfl, rfl, rfl, fun _ => rfl, fun _ => rfl,
    fun _ => rfl, advanced_nextPc s, ?_, rfl⟩
  rw [← beq_zero_eq_decide]
  exact List.append_assoc _ _ _

/-- Settles O39: only the trace and the next pc are left. -/
theorem ecallOther : Obligations.EcallOther := by
  intro s hw hexit
  rw [Ne, toNat_eq_write_iff] at hw
  rw [Ne, toNat_eq_exit_iff] at hexit
  exact ⟨_, exec_ecall_other hw hexit, fun _ => rfl, fun _ => rfl, fun _ => rfl, ⟨rfl, rfl, rfl, rfl⟩,
    advanced_nextPc s, rfl⟩

end Sys2Proof.Proofs
end

section
/-! SUPPORT. The memory controller: scalar and byte-range accesses (20_memory.md R55 to R62). -/

namespace Sys2Proof.Proofs

open Sys2Proof.Machine

/-- Settles O8: the bounds rule of each direction. -/
theorem scalarBoundsFault : Obligations.ScalarBoundsFault := fun _ _ _ v ha ho =>
  ⟨memRead_out ha ho, memWrite_out v ha ho⟩

/-- Settles O9: the load in range answers, and its bytes are those of memory. -/
theorem scalarLoadLittleEndian : Obligations.ScalarLoadLittleEndian := fun _ _ _ ha hlo hhi =>
  ⟨_, memRead_in ha hlo hhi, fun _ hk => memRead_byte (memRead_in ha hlo hhi) hk⟩

/-- The bytes a store wrote are read back as its value (20_memory.md R56, R59). -/
theorem memRead_writeList {s : State} (hwf : s.buf.wf) {a : Word} {w : Width} (v : BitVec (8 * w.bytes))
    (ha : a.toNat % w.bytes = 0) (hlo : s.cfg.base ≤ a.toNat) (hhi : a.toNat + w.bytes - 1 ≤ s.cfg.top) :
    State.memRead { s with buf := s.buf.writeList (a.toNat - s.cfg.base) (leBytes w.bytes v) } a w = .ok v := by
  have hbytes := Memory.readN_writeList hwf (a.toNat - s.cfg.base) (leBytes w.bytes v)
  rw [length_leBytes] at hbytes
  rw [memRead_in (s := { s with buf := s.buf.writeList (a.toNat - s.cfg.base) (leBytes w.bytes v) }) ha hlo hhi]
  simp only [hbytes, leNat_leBytes]
  rw [Nat.mod_eq_of_lt v.isLt, BitVec.ofNat_toNat, BitVec.setWidth_eq]

/-- Settles O10: the store's bytes are read back, and the bytes outside its span are kept. -/
theorem scalarStoreThenLoad : Obligations.ScalarStoreThenLoad := by
  intro s a w v hinv ha hlo hhi
  refine ⟨_, memWrite_in v ha hlo hhi, memRead_writeList hinv.bufWf v ha hlo hhi, fun b hb => ?_, fun _ => rfl,
    fun _ => rfl, ⟨rfl, rfl, rfl, rfl⟩, rfl, rfl⟩
  exact byteAt_writeList_outside hinv.bufWf hlo _ (by rwa [length_leBytes])

theorem writeBytes_start {s : State} {a : Word} {d : List Byte} (h : ¬(s.cfg.base ≤ a.toNat ∧ a.toNat ≤ s.cfg.top)) :
    s.writeBytes a d = .error (.storeAddressFault a) := by
  rw [State.writeBytes, rangeCheck_start h]

theorem writeBytes_end {s : State} {a : Word} {d : List Byte} (hlo : s.cfg.base ≤ a.toNat) (hhi : a.toNat ≤ s.cfg.top)
    (hend : s.cfg.top < a.toNat + d.length) :
    s.writeBytes a d = .error (.storeAddressFault (BitVec.ofNat 64 ((a.toNat + d.length) % s.modulus))) := by
  rw [State.writeBytes, rangeCheck_end ⟨hlo, hhi⟩ hend]
  rfl

/-- Settles O12: the two failing checks, and what the stored bytes change. -/
theorem byteRangeWrite : Obligations.ByteRangeWrite := by
  intro s a d hinv
  refine ⟨writeBytes_start, writeBytes_end, fun hlo hhi => ?_⟩
  exact ⟨_, writeBytes_in d hlo hhi, fun k hk => byteAt_writeList_inside hinv.bufWf hlo d hk (by omega),
    fun b hb => byteAt_writeList_outside hinv.bufWf hlo d hb, fun _ => rfl, fun _ => rfl, ⟨rfl, rfl, rfl, rfl⟩, rfl,
    rfl⟩

/-- Settles O13: with length 0 the start and the end check are one. -/
theorem byteRangeEmpty : Obligations.ByteRangeEmpty := by
  intro s a
  refine ⟨fun ⟨hlo, hhi⟩ => ⟨?_, writeBytes_in [] hlo hhi⟩, fun h => ⟨readBytes_start h, writeBytes_start h⟩⟩
  obtain ⟨bytes, hread, hlen, _⟩ := readBytes_in (len := 0) hlo hhi
  rw [hread, List.length_eq_zero_iff.1 hlen]

end Sys2Proof.Proofs
end

section
/-! SUPPORT. Construction, the host's entry points and the boot sequence (70_reset_and_hazards.md R260 to R265), and
the floating-point file (10_state.md R26). -/

namespace Sys2Proof.Proofs

open Sys2Proof.Machine

theorem construct_wf {c : Config} (h : c.wf) : construct c = .next (State.init c) := if_pos h

theorem not_wf_iff (c : Config) : ¬c.wf ↔ c.size = 0 ∨ 2 ^ c.xlen.bits < c.base + c.size := by
  rw [Config.wf]
  omega

/-- Settles O1: what construction leaves, read through the accessors. -/
theorem constructionState : Obligations.ConstructionState := fun c h =>
  ⟨State.init c, construct_wf h, rfl, init_x c, init_f c, rfl, rfl, rfl, rfl, rfl,
    fun _ hlo hhi => byteAt_in ⟨hlo, hhi⟩⟩

/-- Settles O2: the refused ranges are those that are not legal. -/
theorem constructionRefusal : Obligations.ConstructionRefusal := by
  intro c
  rw [← not_wf_iff, not_not]
  refine ⟨⟨fun h hwf => ?_, fun h => if_neg h⟩, fun hwf => ⟨_, construct_wf hwf⟩⟩
  rw [construct_wf hwf] at h
  cases h

/-- Settles O6: the read-after-write rule of the floating-point file. -/
theorem floatRegisterFile : Obligations.FloatRegisterFile := by
  intro s r q v
  refine ⟨?_, fun hq => by rw [setF_f, if_neg hq], fun _ => rfl⟩
  rw [setF_f, if_pos rfl, toNat_trunc]
  rfl

/-- Settles O60: each entry point when idle, and its refusal otherwise. -/
theorem hostEntryPoints : Obligations.HostEntryPoints := by
  intro s pc0 flag
  refine ⟨fun h => ⟨?_, ?_, ?_⟩, fun h => ⟨whenIdle_busy h _, whenIdle_busy h _, whenIdle_busy h _⟩⟩
  · exact ⟨_, whenIdle_idle h _, toNat_trunc _ _, fun _ => rfl, fun _ => rfl, fun _ => rfl, ⟨rfl, rfl, rfl, rfl⟩, rfl⟩
  · exact ⟨_, whenIdle_idle h _, rfl, fun _ => rfl, fun _ => rfl, fun _ => rfl, rfl, rfl, h, rfl⟩
  · refine ⟨_, whenIdle_idle h _, rfl, ((phase_idle s).1 h).2, fun _ => rfl, fun _ => rfl, fun _ => rfl, rfl, rfl, rfl,
      rfl, whenIdle_busy ?_ _⟩
    exact nofun

/-! ### The image -/

/-- The engine with an image placed at BASE (20_memory.md R70). -/
def placeImage (s : State) (image : List Byte) : State := { s with buf := s.buf.writeList 0 image }

theorem initFrom_fits {s : State} {image : List Byte} (hp : s.phase = .idle) (hlen : image.length ≤ s.cfg.size) :
    initFrom image s = .next (placeImage s image) :=
  (whenIdle_idle hp _).trans (if_pos hlen)

/-- The byte of the image at each offset of the range, and the old byte past it (20_memory.md R70). -/
theorem placeImage_byteAt {s : State} (hwf : s.buf.wf) (image : List Byte) {i : Nat} (hi : i < s.cfg.size) :
    (placeImage s image).byteAt (s.cfg.base + i) = some (image[i]?.getD (s.buf.read i)) := by
  have hrange : s.cfg.base ≤ s.cfg.base + i ∧ s.cfg.base + i ≤ s.cfg.top := by
    rw [Config.top]
    omega
  have hoffset : s.cfg.base + i - (placeImage s image).cfg.base = i := Nat.add_sub_cancel_left _ _
  rw [byteAt_in (s := placeImage s image) hrange, hoffset, placeImage, Memory.read_writeList hwf,
    if_pos (Nat.zero_le i), Nat.sub_zero]

theorem placeImage_byteAt_outside {s : State} (hwf : s.buf.wf) (image : List Byte) {a : Nat}
    (ha : a < s.cfg.base ∨ s.cfg.base + image.length ≤ a) : (placeImage s image).byteAt a = s.byteAt a := by
  have h := byteAt_writeList_outside hwf le_rfl image ha
  rwa [Nat.sub_self] at h

/-- Placing the image again changes nothing: both buffers are canonical and read alike. -/
theorem placeImage_twice {s : State} (hwf : s.buf.wf) (image : List Byte) :
    placeImage (placeImage s image) image = placeImage s image := by
  have hwf' := Memory.wf_writeList hwf 0 image
  have hbuf : (s.buf.writeList 0 image).writeList 0 image = s.buf.writeList 0 image := by
    refine Memory.ext (Memory.wf_writeList hwf' 0 image) hwf' fun o => ?_
    rw [Memory.read_writeList hwf', Memory.read_writeList hwf, if_pos (Nat.zero_le o), if_pos (Nat.zero_le o)]
    cases image[o - 0]? <;> rfl
  exact congrArg (fun m => { s with buf := m }) hbuf

theorem inv_placeImage {s : State} (h : s.Inv) {image : List Byte} (hlen : image.length ≤ s.cfg.size) :
    (placeImage s image).Inv := by
  refine { h with bufWf := Memory.wf_writeList h.bufWf 0 image, bufInside := fun c hc => ?_ }
  rcases Memory.mem_writeList hc with hold | ⟨_, hnew⟩
  · exact h.bufInside c hold
  · exact lt_of_lt_of_le hnew (by rwa [Nat.zero_add])

/-- Settles O3: the placed bytes, the kept ones, the second placing, and the two refusals. -/
theorem initFromPlacesImage : Obligations.InitFromPlacesImage := by
  intro s image hinv
  refine ⟨fun hp hlen => ?_, fun hp hlong => ?_, fun hp => whenIdle_busy hp _⟩
  · refine ⟨_, initFrom_fits hp hlen, fun i hi => ?_, fun a ha => placeImage_byteAt_outside hinv.bufWf image ha,
      fun _ => rfl, fun _ => rfl, ⟨rfl, rfl, rfl, rfl⟩, rfl, rfl, ?_⟩
    · rw [placeImage_byteAt hinv.bufWf image (lt_of_lt_of_le hi hlen), List.getElem?_eq_getElem hi, Option.getD_some]
    · have hp' : (placeImage s image).phase = .idle := hp
      rw [initFrom_fits hp' hlen, placeImage_twice hinv.bufWf]
  · exact (whenIdle_idle hp _).trans (if_neg (Nat.not_le.2 hlong))

/-- The state the boot sequence leaves (70_reset_and_hazards.md R265). -/
def bootedState (c : Config) (image : List Byte) (pc0 : Word) (flag : Bool) : State :=
  State.startRun { (placeImage (State.init c) image).setPc pc0 with debug := flag }

/-- Every step of the boot sequence is allowed: the engine stays idle until the last one. -/
theorem boot_eq {c : Config} {image : List Byte} (hwf : c.wf) (hlen : image.length ≤ c.size) (pc0 : Word)
    (flag : Bool) : boot c image pc0 flag = .next (bootedState c image pc0 flag) := by
  have hidle : (State.init c).phase = .idle := rfl
  have hinit := initFrom_fits (image := image) hidle hlen
  simp only [boot, construct_wf hwf, hinit]
  rfl

/-- Settles O4: the booted state is the constructed one with the image, the pc and the two flags set. -/
theorem bootSequence : Obligations.BootSequence := by
  intro c image pc0 flag hwf hlen
  have hinv : (placeImage (State.init c) image).Inv := inv_placeImage (inv_init hwf) hlen
  refine ⟨_, boot_eq hwf hlen pc0 flag, { inv_setPc hinv pc0 with runningNone := fun _ => rfl }, rfl, rfl,
    toNat_trunc _ _, rfl, init_x c, init_f c, rfl, fun i hi => ?_⟩
  exact placeImage_byteAt (s := State.init c) Memory.wf_nil image hi

end Sys2Proof.Proofs
end

section
/-! SUPPORT. The fetch of a two- and a four-byte instruction (40_fetch_engine.md R135 to R138). -/

namespace Sys2Proof.Proofs

open Sys2Proof.Machine Sys2Proof.Laws

/-! ### Parcels -/

theorem parcelNat_lt (b0 b1 : Byte) : parcelNat b0 b1 < 65536 := by
  have h0 := b0.isLt
  have h1 := b1.isLt
  unfold parcelNat
  omega

/-- The parcel of two bytes, as a number and as a concatenation (20_memory.md R59). -/
theorem ofNat_parcelNat (b0 b1 : Byte) : BitVec.ofNat 16 (parcelNat b0 b1) = parcelOf b0 b1 := by
  apply BitVec.eq_of_toNat_eq
  have h0 := b0.isLt
  rw [BitVec.toNat_ofNat, Nat.mod_eq_of_lt (parcelNat_lt b0 b1), parcelOf, BitVec.toNat_append,
    ← Nat.shiftLeft_add_eq_or_of_lt h0, Nat.shiftLeft_eq, parcelNat]
  omega

theorem setWidth_ofNat_parcelNat (b0 b1 : Byte) :
    (BitVec.ofNat 16 (parcelNat b0 b1)).setWidth 32 = BitVec.ofNat 32 (parcelNat b0 b1) := by
  have h := parcelNat_lt b0 b1
  apply BitVec.eq_of_toNat_eq
  simp only [BitVec.toNat_setWidth, BitVec.toNat_ofNat]
  omega

/-- The word of two parcels, "high halfword in the upper 16 bits" (30_encoding.md R91). -/
theorem composeWord_ofNat (b0 b1 b2 b3 : Byte) :
    composeWord (BitVec.ofNat 16 (parcelNat b2 b3)) (BitVec.ofNat 16 (parcelNat b0 b1)) =
      BitVec.ofNat 32 (parcelNat b0 b1 + 65536 * parcelNat b2 b3) := by
  have hlo := parcelNat_lt b0 b1
  have hhi := parcelNat_lt b2 b3
  apply BitVec.eq_of_toNat_eq
  rw [composeWord, BitVec.toNat_append, ← Nat.shiftLeft_add_eq_or_of_lt (BitVec.isLt _), Nat.shiftLeft_eq]
  simp only [BitVec.toNat_ofNat]
  omega

theorem lenOf_parcelNat_four {b0 : Byte} (h : b0.toNat % 4 = 3) (b1 : Byte) :
    lenOf (BitVec.ofNat 16 (parcelNat b0 b1)) = .four := by
  rw [two_low_bits, BitVec.toNat_ofNat, Nat.mod_eq_of_lt (parcelNat_lt b0 b1), parcelNat]
  omega

/-! ### The page check and the second parcel's address -/

theorem straddlesPage_iff (c : Config) (pc : Word) : straddlesPage c pc = true ↔ (pc.toNat - c.base) % 4096 = 4094 := by
  simp [straddlesPage, addressRange, Config.page]

theorem toNat_secondPc (s : State) : s.secondPc.toNat = (s.pc.toNat + 2) % s.modulus := toNat_trunc_add _ _ 2#64

theorem secondPc_eq_ofNat (s : State) : s.secondPc = BitVec.ofNat 64 ((s.pc.toNat + 2) % s.modulus) := by
  rw [← toNat_secondPc, BitVec.ofNat_toNat, BitVec.setWidth_eq]

/-- `TOP` is an XLEN-bit address (00_scope.md R10). -/
theorem top_lt_modulus {s : State} (h : s.Inv) : s.cfg.top < s.modulus := by
  obtain ⟨hsize, hend⟩ := h.range
  rw [Config.top, State.modulus]
  omega

theorem toNat_secondPc_in {s : State} (h : s.Inv) (hhi : s.pc.toNat + 2 ≤ s.cfg.top) :
    s.secondPc.toNat = s.pc.toNat + 2 := by
  rw [toNat_secondPc, Nat.mod_eq_of_lt (lt_of_le_of_lt hhi (top_lt_modulus h))]

/-! ### The fetch -/

section
variable {s : State} {b0 b1 : Byte}

theorem fetch_first_error {f : Fault} (h : s.fetchParcel s.pc = .error f) : s.fetch = .error f := by
  simp only [State.fetch, h]

/-- A four-byte instruction at the end of a page is never read past its first parcel (40_fetch_engine.md R137). -/
theorem fetch_straddling (heven : s.pc.toNat % 2 = 0) (h0 : s.byteAt s.pc.toNat = some b0)
    (h1 : s.byteAt (s.pc.toNat + 1) = some b1) (h4 : b0.toNat % 4 = 3)
    (hpage : (s.pc.toNat - s.cfg.base) % 4096 = 4094) :
    s.fetch = .error (.illegalInstruction (BitVec.ofNat 32 (parcelNat b0 b1)) s.pc) := by
  simp only [State.fetch, fetchParcel_in heven h0 h1, lenOf_parcelNat_four h4, (straddlesPage_iff _ _).2 hpage, if_true,
    setWidth_ofNat_parcelNat]

/-- The fetch of a four-byte instruction that passes the page check goes on to its second parcel. -/
theorem fetch_passing (heven : s.pc.toNat % 2 = 0) (h0 : s.byteAt s.pc.toNat = some b0)
    (h1 : s.byteAt (s.pc.toNat + 1) = some b1) (h4 : b0.toNat % 4 = 3)
    (hpage : (s.pc.toNat - s.cfg.base) % 4096 ≠ 4094) :
    (∀ f, s.fetchParcel s.secondPc = .error f → s.fetch = .error f) ∧
    (∀ hi, s.fetchParcel s.secondPc = .ok hi →
      s.fetch = .ok { len := .four, bits := composeWord hi (BitVec.ofNat 16 (parcelNat b0 b1)) }) := by
  have hpass : straddlesPage s.cfg s.pc = false := by
    rw [← Bool.not_eq_true, straddlesPage_iff]
    exact hpage
  constructor <;> intro r hr <;>
    simp only [State.fetch, fetchParcel_in heven h0 h1, lenOf_parcelNat_four h4, hpass, hr] <;> rfl

/-- A four-byte instruction is fetched from its four bytes (40_fetch_engine.md R138). -/
theorem fetch_four {b2 b3 : Byte} (hinv : s.Inv) (heven : s.pc.toNat % 2 = 0) (h0 : s.byteAt s.pc.toNat = some b0)
    (h1 : s.byteAt (s.pc.toNat + 1) = some b1) (h2 : s.byteAt (s.pc.toNat + 2) = some b2)
    (h3 : s.byteAt (s.pc.toNat + 3) = some b3) (h4 : b0.toNat % 4 = 3)
    (hpage : (s.pc.toNat - s.cfg.base) % 4096 ≠ 4094) :
    s.fetch = .ok { len := .four, bits := BitVec.ofNat 32 (parcelNat b0 b1 + 65536 * parcelNat b2 b3) } := by
  have hpc2 := toNat_secondPc_in hinv (byteAt_some h2).1.2
  rw [← hpc2] at h2
  rw [show s.pc.toNat + 3 = s.secondPc.toNat + 1 by omega] at h3
  rw [(fetch_passing heven h0 h1 h4 hpage).2 _ (fetchParcel_in (by omega) h2 h3), composeWord_ofNat]

end

/-- Settles O21: alignment and bounds of the first parcel, and its two bytes. -/
theorem fetchFirstParcel : Obligations.FetchFirstParcel := by
  intro s hp
  refine ⟨fun hodd => ?_, fun heven hout => ?_, fun heven hlo hhi => ?_⟩
  · exact ⟨_, step_fetch_error hp (fetch_first_error (fetchParcel_misaligned hodd)), haltedOn_haltWith s _⟩
  · exact ⟨_, step_fetch_error hp (fetch_first_error (fetchParcel_out heven hout)), haltedOn_haltWith s _⟩
  · have h0 := byteAt_in (s := s) (a := s.pc.toNat) (by omega)
    have h1 := byteAt_in (s := s) (a := s.pc.toNat + 1) (by omega)
    exact ⟨_, _, h0, h1, fetchParcel_in heven h0 h1⟩

theorem step_dispatch {s : State} {d : Fetched} (hp : s.phase = .running) (hf : s.fetch = .ok d) :
    step s = dispatch s d := by
  rw [step_running hp, hf]

/-- Settles O22: the straddling fetch faults, and a two-byte parcel is fetched alone and never an operation. -/
theorem pageCheck : Obligations.PageCheck := by
  intro s b0 b1 hp heven h0 h1
  refine ⟨fun h4 hpage => ?_, ?_⟩
  · exact ⟨_, step_fetch_error hp (fetch_straddling heven h0 h1 h4 hpage), haltedOn_haltWith s _⟩
  · rintro h4 d rfl
    have hf := fetch_two heven h0 h1 h4
    exact ⟨hf, step_dispatch hp hf,
      fun hv => ⟨_, step_illegal hp hf (decodeOther_illegal hv), haltedOn_haltWith s _⟩,
      fun hv => ⟨_, step_unimplemented hp hf (decodeOther_unimplemented hv), haltedOn_traceInstr s _ _⟩⟩

/-- The second parcel is out of range where it does not end by `TOP`. A pc that wraps stands at the end of a page when
BASE = 0, which the page check has excluded (40_fetch_engine.md R137, R138). -/
theorem secondPc_out {s : State} (hinv : s.Inv) (heven : s.pc.toNat % 2 = 0) (hhi : s.pc.toNat + 1 ≤ s.cfg.top)
    (hpage : (s.pc.toNat - s.cfg.base) % 4096 ≠ 4094) (hout : s.cfg.top < s.pc.toNat + 3) :
    s.secondPc.toNat % 2 = 0 ∧ (s.secondPc.toNat < s.cfg.base ∨ s.cfg.top < s.secondPc.toNat + 1) := by
  have htop := top_lt_modulus hinv
  have hpc2 := toNat_secondPc s
  rw [State.modulus] at htop hpc2
  cases hx : s.cfg.xlen <;> rw [hx] at htop hpc2 <;> simp only [Xlen.bits] at htop hpc2 <;> omega

/-- Settles O23: the second parcel fails its bounds check, or makes the upper half of the word. -/
theorem fetchSecondParcel : Obligations.FetchSecondParcel := by
  intro s b0 b1 hinv hp heven h0 h1 h4 hpage
  refine ⟨fun hout => ?_, fun hhi => ?_⟩
  · obtain ⟨heven2, hout2⟩ := secondPc_out hinv heven (byteAt_some h1).1.2 hpage hout
    have hf := (fetch_passing heven h0 h1 h4 hpage).1 _ (fetchParcel_out heven2 hout2)
    rw [← secondPc_eq_ofNat]
    exact ⟨_, step_fetch_error hp hf, haltedOn_haltWith s _⟩
  · have hlo := (byteAt_some h0).1.1
    have h2 := byteAt_in (s := s) (a := s.pc.toNat + 2) (by omega)
    have h3 := byteAt_in (s := s) (a := s.pc.toNat + 3) (by omega)
    exact ⟨_, _, h2, h3, step_dispatch hp (fetch_four hinv heven h0 h1 h2 h3 h4 hpage)⟩

/-- The number of the four bytes of a word is the word. -/
theorem ofNat_wordBytes (w : BitVec 32) :
    BitVec.ofNat 32 (parcelNat (w.extractLsb' 0 8) (w.extractLsb' 8 8) +
      65536 * parcelNat (w.extractLsb' 16 8) (w.extractLsb' 24 8)) = w := by
  rw [← composeWord_ofNat, ofNat_parcelNat, ofNat_parcelNat, parcelOf_low_bytes, parcelOf_high_bytes,
    composeWord_parcels]

/-- Settles O20: the four bytes are fetched as the encoding, which decodes to the instruction. -/
theorem stepRunsEncodedBytes : Obligations.StepRunsEncodedBytes := by
  intro s i hinv hp hwf heven _ _ hpage hbytes
  have h4 : ((encode i).extractLsb' 0 8).toNat % 4 = 3 := by
    have hmod := encode_mod_four i
    rw [BitVec.extractLsb'_toNat, Nat.shiftRight_zero]
    omega
  have hf := fetch_four hinv heven (hbytes 0 (by decide)) (hbytes 1 (by decide)) (hbytes 2 (by decide))
    (hbytes 3 (by decide)) h4 hpage
  rw [ofNat_wordBytes] at hf
  rw [step_op hp hf (decode_encode s.cfg hwf), traceInstr_emitted]

end Sys2Proof.Proofs
end

section
/-! SUPPORT. The self-loop `jal x0, 0` (40_fetch_engine.md R149). -/

namespace Sys2Proof.Proofs

open Sys2Proof.Machine Sys2Proof.Laws

theorem decode_selfLoop (c : Config) : decode c .four 0x0000006F#32 = .op (.jal 0 0) :=
  decode_of_decodeRow c (by cases c.xlen <;> decide)

/-- A jump by 0 that links nothing leaves the state as it is. -/
theorem exec_selfLoop {s : State} (h : fits s.cfg.xlen s.pc) : exec (.jal 0 0) s = .next s := by
  have hoff : s.immJ 0 = 0 := by
    rw [State.immJ]
    cases s.cfg.xlen <;> rfl
  have hpc : trunc s.cfg.xlen (s.pc + s.immJ 0) = s.pc := by rw [hoff, add_zero, trunc_of_lt h]
  exact congrArg (fun p => Host.Outcome.next { s with pc := p }) hpc

/-- The word of the self-loop, as fetched. -/
def selfLoop : Fetched := { len := .four, bits := 0x0000006F#32 }

theorem step_selfLoop {s : State} (hinv : s.Inv) (hp : s.phase = .running) (hf : s.fetch = .ok selfLoop) :
    step s = .next { s with log := s.log ++ traceEvents s selfLoop } := by
  rw [step_op hp hf (decode_selfLoop s.cfg), traceInstr_emitted]
  exact exec_selfLoop hinv.pcFits

theorem run_selfLoop (n : Nat) {s : State} (hinv : s.Inv) (hp : s.phase = .running) (hf : s.fetch = .ok selfLoop) :
    Sys2Proof.core.run n s = .next { s with log := s.log ++ (List.replicate n (traceEvents s selfLoop)).flatten } := by
  induction n generalizing s with
  | zero => rw [List.replicate_zero, List.flatten_nil, emitted_nil]; rfl
  | succ n ih =>
    have hstep := step_selfLoop hinv hp hf
    rw [core_run_next hstep, ih (stepInv _ _ hinv hstep) hp hf, List.replicate_succ, List.flatten_cons,
      ← List.append_assoc]
    rfl

/-- Settles O58: every number of steps ends where it began but for the log, so with no halt record. -/
theorem selfLoopNeverEnds : Obligations.SelfLoopNeverEnds := by
  rintro s _ hinv hp rfl hf n
  refine ⟨run_selfLoop n hinv hp hf, fun k _ t ht => .inl ?_⟩
  obtain rfl := Host.Outcome.next.inj ((run_selfLoop k hinv hp hf).symm.trans ht)
  exact halt_none_of_running (s := s) hinv hp

end Sys2Proof.Proofs
end

section
/-! SUPPORT. The pc-relative pseudo-instructions (30_encoding.md R121). -/

namespace Sys2Proof.Proofs

open Sys2Proof.Machine

theorem execAll_pair {i j : Instr} {s t u : State} (hi : exec i s = .next t) (hj : exec j t = .next u) :
    execAll [i, j] s = .next u := by
  simp only [execAll, hi, hj]

/-- The split of R121 loses 2^32 where it rounds `hi` past the sign bit, and nothing elsewhere. -/
theorem split_sum (o : BitVec 32) :
    (hiOf o ++ 0#12).toInt + (loOf o).toInt = o.toInt - if 2 ^ 31 - 2 ^ 11 ≤ o.toInt then 2 ^ 32 else 0 := by
  have hlt := o.isLt
  have hhi : (hiOf o).toNat = (o.toNat + 2048) % 2 ^ 32 / 4096 := by
    rw [hiOf, BitVec.extractLsb'_toNat, Nat.shiftRight_eq_div_pow, BitVec.toNat_add]
    simp only [BitVec.toNat_ofNat]
    omega
  have hlo : (loOf o).toNat = o.toNat % 4096 := by rw [loOf, BitVec.extractLsb'_toNat, Nat.shiftRight_zero]
  rw [BitVec.toInt_append_zero, BitVec.toInt_eq_toNat_cond, BitVec.toInt_eq_toNat_cond, BitVec.toInt_eq_toNat_cond,
    hhi, hlo]
  split <;> split <;> split <;> split <;> omega

/-- What a split offset reaches from the pc: 2^32 less where the split overflows (30_encoding.md R121). -/
def splitTarget (s : State) (o : BitVec 32) : Int :=
  ((s.pc.toNat : Int) + o.toInt - if 2 ^ 31 - 2 ^ 11 ≤ o.toInt then 2 ^ 32 else 0) % (s.modulus : Int)

/-- The state after the AUIPC that begins an expansion. -/
def auipcState (s : State) (r : Reg) (o : BitVec 32) : State := (s.setX r (s.pc + s.immU (hiOf o))).nextPc .four

section
variable (s : State) (r : Reg) (o : BitVec 32)

theorem auipcState_cfg : (auipcState s r o).cfg = s.cfg := setX_cfg _ _ _

theorem auipcState_pc : (auipcState s r o).pc = trunc s.cfg.xlen (s.pc + 4#64) := by
  rw [auipcState, nextPc_pc, setX_cfg, setX_pc]
  rfl

theorem auipcState_x_ne {q : Reg} (h : q ≠ r) : (auipcState s r o).x q = s.x q := setX_x_ne s h _

/-- The link of a jump that follows the AUIPC is two instructions past it. -/
theorem toNat_link_auipcState (v : Reg) (hv : v ≠ 0) (p : Word) :
    ((((auipcState s r o).setX v (auipcState s r o).link).setPc p).x v).toNat = (s.pc.toNat + 8) % s.modulus := by
  rw [(link_setPc_rule (auipcState s r o) v p).1 hv, auipcState_pc, toNat_trunc_add, State.modulus, auipcState_cfg,
    Nat.mod_add_mod]
  rfl

/-- The sum of the AUIPC's register and the low part is the target (41_integer.md R163, 43_control.md R191). -/
theorem toNat_target_auipcState (h : r ≠ 0) :
    ((trunc (auipcState s r o).cfg.xlen ((auipcState s r o).x r + (auipcState s r o).immI (loOf o))).toNat : Int) =
      splitTarget s o := by
  have hx : (auipcState s r o).x r = trunc s.cfg.xlen (s.pc + sext s.cfg.xlen (hiOf o ++ 0#12)) := setX_x_same s h _
  rw [hx, State.immI, auipcState_cfg, toNat_trunc_add_sext _ _ (by decide), toNat_trunc_add_sext _ _ (by decide),
    Int.emod_add_emod, add_assoc, split_sum, ← add_sub_assoc]
  rfl

/-- AUIPC and JALR reach the target, link past the pair, and write no other register. -/
theorem execAll_auipc_jalr (h : r ≠ 0) (rd : Reg) :
    ∃ t, execAll [.auipc r (hiOf o), .jalr rd r (loOf o)] s = .next t ∧ (t.pc.toNat : Int) = splitTarget s o ∧
      (rd ≠ 0 → (t.x rd).toNat = (s.pc.toNat + 8) % s.modulus) ∧ ∀ q, q ≠ r → q ≠ rd → t.x q = s.x q := by
  refine ⟨_, execAll_pair (t := auipcState s r o) rfl rfl, ?_, fun hrd => toNat_link_auipcState s r o rd hrd _,
    fun q hr hrd => (setX_x_ne _ hrd _).trans (auipcState_x_ne s r o hr)⟩
  rw [setPc_pc, setX_cfg]
  exact toNat_target_auipcState s r o h

/-- AUIPC and ADDI compute the target, and write no other register. -/
theorem execAll_auipc_addi :
    ∃ t, execAll [.auipc r (hiOf o), .addi r r (loOf o)] s = .next t ∧
      (r ≠ 0 → ((t.x r).toNat : Int) = splitTarget s o) ∧ SameRegsBut r s t := by
  refine ⟨_, execAll_pair (t := auipcState s r o) rfl rfl, fun h => ?_,
    fun q hq => (setX_x_ne _ hq _).trans (auipcState_x_ne s r o hq)⟩
  rw [nextPc_x, setX_x_same _ h]
  exact toNat_target_auipcState s r o h

end

/-- Settles O59: `call` and `tail` are AUIPC and JALR with two links, `lla` is AUIPC and ADDI. -/
theorem pcRelativePseudos : Obligations.PcRelativePseudos := by
  rintro s o rd _ rfl
  obtain ⟨t, ht, hval, hframe⟩ := execAll_auipc_addi s rd o
  refine ⟨?_, ?_, fun h => ⟨t, ht, hval h, hframe⟩, ?_⟩
  · obtain ⟨u, hu, hpc, hlink, hregs⟩ := execAll_auipc_jalr s 1 o (by decide) 1
    exact ⟨u, hu, hpc, hlink (by decide), fun q hq => hregs q hq hq⟩
  · obtain ⟨u, hu, hpc, _, hregs⟩ := execAll_auipc_jalr s 6 o (by decide) 0
    refine ⟨u, hu, hpc, fun q hq => ?_⟩
    by_cases h0 : q = 0
    · rw [h0, x_zero, x_zero]
    · exact hregs q hq h0
  · rintro rfl
    refine ⟨t, ht, fun q => ?_⟩
    by_cases h0 : q = 0
    · rw [h0, x_zero, x_zero]
    · exact hframe q h0

end Sys2Proof.Proofs
end
